-- ==== Sys2Proof/Word.lean ====
section
/-! DEFINITION. The widths of the block's values (00_scope.md R4, R7: every value is unsigned, bit 0 is the least
significant). -/

namespace Sys2Proof

/-- Eight bits: a matrix row, a column mask, an ASCII value (R4, R21). -/
abbrev Byte := BitVec 8

/-- A PS/2 Code, 16 bits (R4 CODE_W, R80). -/
abbrev Code := BitVec 16

/-- A key identity, bits 12:0 of a code (R81). -/
abbrev KeyId := BitVec 13

/-- The value compared with the special keys and handed to SC2ASCII, bits 14:0 of a code (R81). -/
abbrev SpKey := BitVec 15

/-- A Matrix Position, one byte of two nibbles (R4 POS_W, R83). -/
abbrev Position := BitVec 8

/-- A row number on the read port, or a position's row field (R83, R95). -/
abbrev RowNum := BitVec 4

/-- A shift override, `{EN, VAL}` (R88). -/
abbrev Ovr := BitVec 2

/-- The register file `MATRIX[1..8]` (R21); `MATRIX[r]` stands at index `r - 1`. -/
abbrev Matrix := Vector Byte 8

end Sys2Proof
end

