-- ==== Sys2Proof/Config.lean ====
section
/-! DEFINITION. The configuration record KEYMAP (00_scope.md R5) and the constant of this machine. Every field of KEYMAP
is OPEN in the spec (92_eei_decisions.md): the model fixes none of them. -/

namespace Sys2Proof

/-- One question to the collaborator table SC2ASCII (20_memory.md R55, R114): the port lines SC_CODE, SC_SHIFT, SC_CTRL. -/
structure ScQuery where
  code  : SpKey
  shift : Bool
  ctrl  : Bool
deriving DecidableEq, Repr, Inhabited

/-- The configuration record KEYMAP (R5). ROM entries are kept as the words the spec gives them (R50). -/
structure Keymap where
  /-- ROM_ASCII: 96 Matrix Positions, index = ascii - 0x20 (R51). -/
  romAscii   : Vector Position 96
  /-- ROM_SPECIAL: `{KEY[15:0], POS[7:0]}` words, NSPEC is the length (R52, R86). -/
  romSpecial : List (BitVec 24)
  /-- ROM_MOD: `{LINE[2:0], ID[12:0]}` words, NMOD is the length (R53, R87). -/
  romMod     : List (BitVec 16)
  /-- ROM_OVR: 96 `{EN, VAL}` pairs, index = ascii - 0x20 (R54, R88). -/
  romOvr     : Vector Ovr 96
  /-- SC2ASCII as data: the first entry with the question gives the answer, a question without an entry is answered NONE
  (R55, R114). Every function of the three arguments is such a list. DESIGN CHOICE (log 8). -/
  sc2ascii   : List (ScQuery × Byte)
  /-- SHIFT_POS, the Matrix Position of the SHIFT key. -/
  shiftPos   : Position
  /-- SPACE_MASK, the column mask of the SPACE sentinel (R84). -/
  spaceMask  : Byte
  /-- COLDEC on its domain, the column fields 0x0 to 0xE (R5, R84). -/
  coldec     : Vector Byte 15
deriving DecidableEq, Repr, Inhabited

namespace Config

/-- The configuration of this machine: OPEN in the spec, so a constant without a body, about which nothing can be proved
(log 2). The machine right after reset holds it; claims are stated for every `Keymap`. -/
opaque keymap : Keymap

/-- The default ROM_OVR: all NONE (R5, R54). -/
def romOvrDefault : Vector Ovr 96 := Vector.replicate 96 0#2

/-- The default column decoder `COLDEC(c) = zext_8(c)` (R84, D11). -/
def coldecDefault : Vector Byte 15 := #v[0, 1, 2, 3, 4, 5, 6, 7, 8, 9, 10, 11, 12, 13, 14]

/-- The named alternative `COLDEC_INDEX(c) = 1 << c[2:0]` (R84, D11). -/
def coldecIndex : Vector Byte 15 := #v[1, 2, 4, 8, 16, 32, 64, 128, 1, 2, 4, 8, 16, 32, 64]

/-- SCAN_PERIOD, a constant of the external scan driver in an unstated unit; no rule reads it (R4, R190, D25). -/
def scanPeriod : Nat := 50

end Config

end Sys2Proof
end

