-- ==== Sys2Proof/Syntax.lean ====
section
/-! DEFINITION. The operations of the block, one constructor per row of spec/opcode_table.json, with the operands the
operation's rule names; and the activity on the block's input ports. -/

namespace Sys2Proof

/-- What a ROM_MOD entry says a key is (30_encoding.md R87, R112). -/
inductive Line where
  | ls | rs | lc | rc | alt
deriving DecidableEq, Repr

/-- The operand of SHIFT.MK and SHIFT.BR: `m` in LS, RS (R141, R142). -/
inductive ShiftKey where
  | left | right
deriving DecidableEq, Repr

/-- The operand of CTRL.MK and CTRL.BR: `m` in LC, RC (R143, R144). -/
inductive CtrlKey where
  | left | right
deriving DecidableEq, Repr

/-- The operations of the block. -/
inductive Instr where
  /-- SHIFT.MK(m), R141. -/
  | shiftMk (m : ShiftKey)
  /-- SHIFT.BR(m), R142. -/
  | shiftBr (m : ShiftKey)
  /-- CTRL.MK(m), R143. -/
  | ctrlMk (m : CtrlKey)
  /-- CTRL.BR(m), R144. -/
  | ctrlBr (m : CtrlKey)
  /-- ALT(0), R145. -/
  | altMk
  /-- ALT(1), R145. -/
  | altBr
  /-- SPECIAL.MK(code), R146. -/
  | specialMk (code : Code)
  /-- PRINT.MK(code), R147. -/
  | printMk (code : Code)
  /-- KEY.BR(id), R148. -/
  | keyBr (id : KeyId)
  /-- EVENT(code), R140. -/
  | event (code : Code)
  /-- RD(row), R172. -/
  | rd (row : RowNum)
  /-- RST, R200. -/
  | rst
  /-- LOOKUP_ASCII(a), R110. -/
  | lookupAscii (a : Byte)
  /-- LOOKUP_SPECIAL(k), R111. -/
  | lookupSpecial (k : SpKey)
  /-- LOOKUP_MOD(id), R112. -/
  | lookupMod (id : KeyId)
  /-- LOOKUP_OVR(a), R113. -/
  | lookupOvr (a : Byte)
  /-- SC2ASCII(k, sh, ct), R114. -/
  | sc2ascii (k : SpKey) (sh ct : Bool)
  /-- RESOLVE(code), R115. -/
  | resolve (code : Code)
  /-- CONTAINS(id), R130. -/
  | contains (id : KeyId)
  /-- ADD(id, pos, ovr), R131. -/
  | add (id : KeyId) (pos : Position) (ovr : Ovr)
  /-- REMOVE(id), R132. -/
  | remove (id : KeyId)
  /-- COUNT, R133. -/
  | count
  /-- PKS_CLEAR, R134. -/
  | pksClear
  /-- ASSERT(pos), R170. -/
  | assertPos (pos : Position)
  /-- CLEAR(pos), R171. -/
  | clearPos (pos : Position)
  /-- CLEARALL, R173. -/
  | clearAll
  /-- REBUILD, R174. -/
  | rebuild
deriving DecidableEq, Repr

/-- The block's three input ports (00_scope.md R10). -/
inductive Port where
  /-- EV_STROBE with EV_CODE[15:0]. -/
  | event
  /-- Activity on the read port with RD_ROW[3:0]. -/
  | read
  /-- The RST line. -/
  | reset
deriving DecidableEq, Repr

/-- One step's activity on the input ports (R9): an event, a read or a reset. Reads never overlap events (20_memory.md R61),
so a step carries one of them; a reset may meet an event strobe, whose code is discarded (R186, R202) (log 14). -/
inductive Activity where
  | event (code : Code)
  | read (row : RowNum)
  | reset (discarded : Option Code)
deriving DecidableEq, Repr

end Sys2Proof
end

