-- ==== Sys2Proof/Machine/Operands.lean ====
section
/-! DEFINITION. Operand forms: the fields of a PS/2 Code (30_encoding.md R80, R81), of a Matrix Position (R83, R84) and of
the ROM entries (R86, R87). -/

namespace Sys2Proof.Machine

/-- `REL`, bit 15: 0 = make, 1 = break (R80, R81). -/
def rel (code : Code) : Bool := code.getLsbD 15

/-- `SHC`, bit 14: the producer's shift-context flag; no operation tests it (R80). -/
def shc (code : Code) : Bool := code.getLsbD 14

/-- `CTC`, bit 13: the producer's control-context flag; no operation tests it (R80). -/
def ctc (code : Code) : Bool := code.getLsbD 13

/-- `KEYID(code) = code[12:0]` (R81). -/
def keyId (code : Code) : KeyId := code.extractLsb' 0 13

/-- `SPKEY(code) = code[14:0]` (R81). -/
def spKey (code : Code) : SpKey := code.extractLsb' 0 15

/-- A code put together from its fields (R80). -/
def mkCode (r s c : Bool) (id : KeyId) : Code :=
  BitVec.ofBool r ++ BitVec.ofBool s ++ BitVec.ofBool c ++ id

/-- `UNMAPPED(pos)`: the sentinel 0xFF, tested before the fields are taken (R83, R84). -/
def unmapped (pos : Position) : Bool := pos == 0xFF#8

/-- `ROWOF(pos) = pos[7:4]` (R84). -/
def rowOf (pos : Position) : RowNum := pos.extractLsb' 4 4

/-- `COLF(pos) = pos[3:0]` (R84). -/
def colF (pos : Position) : BitVec 4 := pos.extractLsb' 0 4

/-- Row numbers 1 to 8 select a register, 0 and 9 to 15 do not (R21, R56). -/
def validRow (r : RowNum) : Bool := 1 ≤ r.toNat && r.toNat ≤ 8

/-- `ROWOK(pos)` (R84). -/
def rowOk (pos : Position) : Bool := validRow (rowOf pos)

/-- `MASKOF(pos)`: SPACE_MASK for the sentinel column field 0xF, else the column decoder's mask (R84). -/
def maskOf (K : Keymap) (pos : Position) : Byte :=
  if h : (colF pos).toNat < 15 then K.coldec[(colF pos).toNat] else K.spaceMask

/-- `e[22:8]`: KEY[14:0] of a ROM_SPECIAL entry; KEY[15] takes no part in a lookup (R86, R111). -/
def specialKey (e : BitVec 24) : SpKey := e.extractLsb' 8 15

/-- `e[23]`: KEY[15] of a ROM_SPECIAL entry, which should be 0 (R86). -/
def specialKeyTop (e : BitVec 24) : Bool := e.getLsbD 23

/-- `e[7:0]`: POS of a ROM_SPECIAL entry (R86). -/
def specialPos (e : BitVec 24) : Position := e.extractLsb' 0 8

/-- `e[12:0]`: ID of a ROM_MOD entry (R87). -/
def modId (e : BitVec 16) : KeyId := e.extractLsb' 0 13

/-- `e[15:13]`: LINE of a ROM_MOD entry; 101 to 111 are treated as ALT (R87, R112). -/
def modLine (e : BitVec 16) : Line :=
  match (e.extractLsb' 13 3).toNat with
  | 0 => .ls
  | 1 => .rs
  | 2 => .lc
  | 3 => .rc
  | _ => .alt

/-- The line a shift key's operand names. -/
def shiftLine : ShiftKey → Line
  | .left => .ls
  | .right => .rs

/-- The line a control key's operand names. -/
def ctrlLine : CtrlKey → Line
  | .left => .lc
  | .right => .rc

end Sys2Proof.Machine
end

