-- ==== Sys2Proof/Machine/Tables.lean ====
section
/-! DEFINITION. The keymap table lookups (40_keymap_tables.md R110 to R115) as functions of the configuration. They read
ROM spaces and write no state. -/

namespace Sys2Proof.Machine

/-- `LOOKUP_ASCII(a)`: NONE outside 0x20..0x7E without reading the ROM, and NONE for an entry 0xFF (R110). -/
def lookupAscii (K : Keymap) (a : Byte) : Option Position :=
  if h : 0x20 ≤ a.toNat ∧ a.toNat ≤ 0x7E then
    let p := K.romAscii[a.toNat - 0x20]
    if unmapped p then none else some p
  else none

/-- `LOOKUP_SPECIAL(k)`: the lowest entry whose KEY[14:0] is `k`; its POS may be 0xFF (R111). -/
def lookupSpecial (K : Keymap) (k : SpKey) : Option Position :=
  (K.romSpecial.find? fun e => specialKey e == k).map specialPos

/-- `LOOKUP_MOD(id)`: the line of the lowest entry whose ID is `id` (R112). -/
def lookupMod (K : Keymap) (id : KeyId) : Option Line :=
  (K.romMod.find? fun e => modId e == id).map modLine

/-- `LOOKUP_OVR(a)`: 00 outside 0x20..0x7E and for an entry with EN = 0, so never 01 (R113). -/
def lookupOvr (K : Keymap) (a : Byte) : Ovr :=
  if h : 0x20 ≤ a.toNat ∧ a.toNat ≤ 0x7E then
    let e := K.romOvr[a.toNat - 0x20]
    if e.getLsbD 1 then e else 0#2
  else 0#2

/-- The answer of the collaborator table, SC_VALID and SC_ASCII together (R55, R114). -/
def sc2ascii (K : Keymap) (q : ScQuery) : Option Byte :=
  (K.sc2ascii.find? fun e => e.1 == q).map (·.2)

/-- `RESOLVE(code)` for a given modifier state: the special table first, then the ASCII path; a special entry 0xFF ends the
resolution (R115). -/
def resolve (K : Keymap) (code : Code) (sh ct : Bool) : Option (Position × Ovr) :=
  match lookupSpecial K (spKey code) with
  | some sp => if unmapped sp then none else some (sp, 0#2)
  | none =>
    match sc2ascii K ⟨spKey code, sh, ct⟩ with
    | none => none
    | some a =>
      match lookupAscii K a with
      | none => none
      | some p => some (p, lookupOvr K a)

/-- The question RESOLVE puts to the collaborator: none when the special table knows the key (R115). -/
def resolveQuery (K : Keymap) (code : Code) (sh ct : Bool) : Option ScQuery :=
  match lookupSpecial K (spKey code) with
  | some _ => none
  | none => some ⟨spKey code, sh, ct⟩

end Sys2Proof.Machine
end

