-- ==== Sys2Proof/WellFormed.lean ====
section
/-! DEFINITION. Well-formedness: of the configuration, `WF_ROM(KEYMAP)` of 00_scope.md R6, one check per clause; and of an
instruction, the condition under which the spec lets its operands occur. The machine checks none of these (R6, D28). -/

namespace Sys2Proof

open Machine

/-- Exactly one bit of the mask is set (R6 (a)). -/
def oneBit (b : Byte) : Bool := [0x01#8, 0x02, 0x04, 0x08, 0x10, 0x20, 0x40, 0x80].contains b

namespace Keymap

/-- Every Matrix Position of ROM_ASCII and ROM_SPECIAL. -/
def tablePositions (K : Keymap) : List Position := K.romAscii.toList ++ K.romSpecial.map specialPos

/-- Clause (a) for one position: 0xFF, or a valid row and a column field that is 0xF or decodes to one bit. -/
def wfPosition (K : Keymap) (p : Position) : Bool :=
  unmapped p || (rowOk p && (colF p == 0xF#4 || oneBit (maskOf K p)))

/-- R6 (a). -/
def wfPositions (K : Keymap) : Bool := K.tablePositions.all K.wfPosition

/-- R6 (b): ROM_SPECIAL keys are pairwise different and have bit 15 clear. -/
def wfSpecialKeys (K : Keymap) : Bool :=
  decide (K.romSpecial.map specialKey).Nodup && K.romSpecial.all fun e => !specialKeyTop e

/-- R6 (c): the two cases of a letter share a position. -/
def wfLetters (K : Keymap) : Bool :=
  (List.finRange 26).all fun i => K.romAscii[0x41 - 0x20 + i.val] == K.romAscii[0x61 - 0x20 + i.val]

/-- R6 (d): SPACE is the sentinel of row 7, and no other ROM_ASCII entry with a mapping is a sentinel. An entry 0xFF is no
sentinel: UNMAPPED is tested before the fields are taken (R84). DEDUCED (log 13). -/
def wfSpace (K : Keymap) : Bool :=
  rowOf K.romAscii[0] == 7#4 && colF K.romAscii[0] == 0xF#4 &&
    K.romAscii.toList.tail.all fun p => unmapped p || colF p != 0xF#4

/-- R6 (e). -/
def wfLastEntry (K : Keymap) : Bool := K.romAscii[95] == 0xFF#8

/-- R6 (f): SHIFT_POS has a valid row and a one-bit mask, and shares its row and mask with no table entry. -/
def wfShiftPos (K : Keymap) : Bool :=
  rowOk K.shiftPos && oneBit (maskOf K K.shiftPos) &&
    K.tablePositions.all fun p => !(rowOf p == rowOf K.shiftPos && maskOf K p == maskOf K K.shiftPos)

/-- R6 (g): ROM_MOD identities are pairwise different and none is the identity of a special key. -/
def wfModIds (K : Keymap) : Bool :=
  decide (K.romMod.map modId).Nodup &&
    K.romMod.all fun e => K.romSpecial.all fun f => (specialKey f).extractLsb' 0 13 != modId e

/-- R6 (h). -/
def wfSpaceMask (K : Keymap) : Bool := oneBit K.spaceMask

/-- NSPEC < 100 (R4, R52) and NMOD <= 16 (R53). -/
def wfSizes (K : Keymap) : Bool := K.romSpecial.length < 100 && K.romMod.length ≤ 16

/-- `WF_ROM(KEYMAP)`, clauses (a) to (h), with the table sizes. Clause (i), SC2ASCII is a function of its arguments, holds of
every `Keymap`: the table is data and does not change (log 8). -/
def wf (K : Keymap) : Bool :=
  K.wfPositions && K.wfSpecialKeys && K.wfLetters && K.wfSpace && K.wfLastEntry && K.wfShiftPos && K.wfModIds &&
    K.wfSpaceMask && K.wfSizes

/-- Some key identity is a modifier key of this line. -/
def hasLine (K : Keymap) (l : Line) : Bool := K.romMod.any fun e => lookupMod K (modId e) == some l

end Keymap

namespace Instr

/-- The instruction's operands can occur with this configuration: an event operation is one that some code selects (R90);
ADD's override is never 01 (R88). The other operands are bounded by their types alone. -/
def wf (K : Keymap) : Instr → Bool
  | .shiftMk m => K.hasLine (shiftLine m)
  | .shiftBr m => K.hasLine (shiftLine m)
  | .ctrlMk m => K.hasLine (ctrlLine m)
  | .ctrlBr m => K.hasLine (ctrlLine m)
  | .altMk => K.hasLine .alt
  | .altBr => K.hasLine .alt
  | .specialMk code => !rel code && (Machine.lookupMod K (keyId code)).isNone && (Machine.lookupSpecial K (spKey code)).isSome
  | .printMk code => !rel code && (Machine.lookupMod K (keyId code)).isNone && (Machine.lookupSpecial K (spKey code)).isNone
  | .keyBr id => (Machine.lookupMod K id).isNone
  | .add _ _ ovr => ovr != 0b01#2
  | .event _ | .rd _ | .rst | .lookupAscii _ | .lookupSpecial _ | .lookupMod _ | .lookupOvr _ | .sc2ascii _ _ _ => true
  | .resolve _ | .contains _ | .remove _ | .count | .pksClear => true
  | .assertPos _ | .clearPos _ | .clearAll | .rebuild => true

/-- An internal primitive: it has no encoding and no port selects it (opcode_table.json, format INTERNAL). -/
def internal : Instr → Bool
  | .shiftMk _ | .shiftBr _ | .ctrlMk _ | .ctrlBr _ | .altMk | .altBr | .specialMk _ | .printMk _ | .keyBr _ => false
  | .event _ | .rd _ | .rst => false
  | .lookupAscii _ | .lookupSpecial _ | .lookupMod _ | .lookupOvr _ | .sc2ascii _ _ _ | .resolve _ => true
  | .contains _ | .add _ _ _ | .remove _ | .count | .pksClear => true
  | .assertPos _ | .clearPos _ | .clearAll | .rebuild => true

end Instr

end Sys2Proof
end

