-- ==== Sys2Proof/Decode.lean ====
section
/-! DEFINITION. Decoding in the spec's two stages, and the encoder. Stage 1 reads the word on a port: EVENT, RD or RST
(30_encoding.md R90, R95). Stage 2 selects the event operation, which is not in the code's bits alone but depends on the
tables (R90). -/

namespace Sys2Proof

open Machine

/-- Why a port's word is no instruction. -/
inductive DecodeError where
  /-- More than 16 bits on EV_CODE. -/
  | codeTooWide
  /-- More than 4 bits on RD_ROW. -/
  | rowTooWide
  /-- The RST line is 0: no reset. -/
  | resetInactive
  /-- More than one bit on the RST line. -/
  | resetTooWide
deriving DecidableEq, Repr

/-- Stage 1, total on any word at any port: every 16-bit code is an EVENT (R91: there is no illegal code), every 4-bit row a
RD, an active reset line RST. -/
def decode (p : Port) (w : Nat) : Except DecodeError Instr :=
  match p with
  | .event => if w < 2 ^ 16 then .ok (.event (BitVec.ofNat 16 w)) else .error .codeTooWide
  | .read => if w < 2 ^ 4 then .ok (.rd (BitVec.ofNat 4 w)) else .error .rowTooWide
  | .reset => if w = 1 then .ok .rst else if w = 0 then .error .resetInactive else .error .resetTooWide

/-- Stage 2, the operation a code selects (R90, the rows in order, first match wins). -/
def select (K : Keymap) (code : Code) : Instr :=
  match lookupMod K (keyId code) with
  | some .ls => if rel code then .shiftBr .left else .shiftMk .left
  | some .rs => if rel code then .shiftBr .right else .shiftMk .right
  | some .lc => if rel code then .ctrlBr .left else .ctrlMk .left
  | some .rc => if rel code then .ctrlBr .right else .ctrlMk .right
  | some .alt => if rel code then .altBr else .altMk
  | none =>
    if rel code then .keyBr (keyId code)
    else match lookupSpecial K (spKey code) with
      | some _ => .specialMk code
      | none => .printMk code

/-- Both stages: the operation that the word on a port runs. -/
def decodeOp (K : Keymap) (p : Port) (w : Nat) : Except DecodeError Instr :=
  match decode p w with
  | .ok (.event code) => .ok (select K code)
  | r => r

/-- The identity of a modifier key of this line: the first ROM_MOD entry that makes one. -/
def lineId (K : Keymap) (l : Line) : Option KeyId :=
  (K.romMod.find? fun e => lookupMod K (modId e) == some l).map modId

/-- A code of a modifier key of this line, context flags clear. -/
def lineWord (K : Keymap) (l : Line) (r : Bool) : Option (Port × Nat) :=
  (lineId K l).map fun id => (.event, (mkCode r false false id).toNat)

/-- The encoder: a port and a word that select the instruction, none for an ill-formed instruction and for the internal
primitives, which have no encoding. -/
def encode (K : Keymap) : Instr → Option (Port × Nat)
  | .shiftMk m => lineWord K (shiftLine m) false
  | .shiftBr m => lineWord K (shiftLine m) true
  | .ctrlMk m => lineWord K (ctrlLine m) false
  | .ctrlBr m => lineWord K (ctrlLine m) true
  | .altMk => lineWord K .alt false
  | .altBr => lineWord K .alt true
  | .specialMk code => if (Instr.specialMk code).wf K then some (.event, code.toNat) else none
  | .printMk code => if (Instr.printMk code).wf K then some (.event, code.toNat) else none
  | .keyBr id => if (Instr.keyBr id).wf K then some (.event, (mkCode true false false id).toNat) else none
  | .event code => some (.event, code.toNat)
  | .rd row => some (.read, row.toNat)
  | .rst => some (.reset, 1)
  | .lookupAscii _ | .lookupSpecial _ | .lookupMod _ | .lookupOvr _ | .sc2ascii _ _ _ | .resolve _ => none
  | .contains _ | .add _ _ _ | .remove _ | .count | .pksClear => none
  | .assertPos _ | .clearPos _ | .clearAll | .rebuild => none

namespace Activity

/-- The port of an activity. RST wins over a simultaneous event, whose code is discarded (60_exceptions.md R186, R202). -/
def port : Activity → Port
  | .event _ => .event
  | .read _ => .read
  | .reset _ => .reset

/-- The word on that port. -/
def word : Activity → Nat
  | .event code => code.toNat
  | .read row => row.toNat
  | .reset _ => 1

/-- What the block runs for an activity: what stage 1 decodes from its port's word. -/
def instr : Activity → Instr
  | .event code => .event code
  | .read row => .rd row
  | .reset _ => .rst

/-- `MK <key> [s] [c]` of the trace notation (R93). -/
def mk (id : KeyId) (s c : Bool) : Activity := .event (mkCode false s c id)

/-- `BR <key> [s] [c]` (R93). -/
def br (id : KeyId) (s c : Bool) : Activity := .event (mkCode true s c id)

/-- `TAP <key>` (R93). -/
def tap (id : KeyId) : List Activity := [mk id false false, br id false false]

/-- `SCAN`, eight reads (R93). -/
def scan : List Activity := [.read 1, .read 2, .read 3, .read 4, .read 5, .read 6, .read 7, .read 8]

end Activity

/-- The activity that a word numbered as spec/opcode_table.json numbers it stands for. The table's widths name the port: 16
bits an event code, 4 bits a row, 1 bit the reset line; rounded up to 8 bits the word 1 is taken as the reset line, whose
row of the table has that bit fixed, and any other as a row. DESIGN CHOICE (log 7). -/
def tableActivity (nbits w : Nat) : Option Activity :=
  match nbits with
  | 16 => if w < 2 ^ 16 then some (.event (BitVec.ofNat 16 w)) else none
  | 8 => if w = 1 then some (.reset none) else if w < 2 ^ 4 then some (.read (BitVec.ofNat 4 w)) else none
  | 4 => if w < 2 ^ 4 then some (.read (BitVec.ofNat 4 w)) else none
  | 1 => if w = 1 then some (.reset none) else none
  | _ => none

/-- The instruction the decoder reads from a word numbered as spec/opcode_table.json numbers it. A 16-bit word is an EVENT:
which event operation it selects depends on the tables (R90) (log 7). -/
def decodeTableWord (nbits w : Nat) : Option Instr :=
  match tableActivity nbits w with
  | none => none
  | some a => (decode a.port a.word).toOption

end Sys2Proof
end

