-- ==== Sys2Proof/Machine/State.lean ====
section
/-! DEFINITION. The state of the block (10_state.md R20 to R24), the reasons a step can stop, and the state after reset
(R30). -/

namespace Sys2Proof.Machine

/-- One slot of the Pressed-Key Set (R22). `ovr` is `00` NONE, `10` FORCE0, `11` FORCE1. When `v` is false the other fields
keep whatever bits they had and no rule reads them (R22, R132). -/
structure Slot where
  v   : Bool
  ovr : Ovr
  pos : Position
  id  : KeyId
deriving DecidableEq, Repr, Inhabited

/-- The Pressed-Key Set, `SLOT[0..5]` (R22). -/
abbrev Slots := Vector Slot 6

/-- The status an event operation reports on EVSTAT (30_encoding.md R94). -/
inductive EvStat where
  | modifier | pressed | released | duplicate | unmapped | full | notHeld | pressedInvRow
deriving DecidableEq, Repr

/-- What ADD answers (41_pressed_key_set.md R131). -/
inductive AddResult where
  | added | present | full
deriving DecidableEq, Repr

/-- What REMOVE answers (R132). -/
inductive RemoveResult where
  | removed | absent
deriving DecidableEq, Repr

/-- The result of an internal primitive run alone (log 10). -/
inductive Answer where
  | none
  | position (p : Option Position)
  | line (l : Option Line)
  | override (o : Ovr)
  | ascii (a : Option Byte)
  | resolved (r : Option (Position × Ovr))
  | bit (b : Bool)
  | add (r : AddResult)
  | remove (r : RemoveResult)
  | count (n : Nat)
deriving DecidableEq, Repr

/-- What one step shows outside the slots, MOD and the rows (00_scope.md R10): the model's own record of the output ports
during the step, replaced by every step and read by none (R27) (log 5). -/
structure Output where
  /-- EVSTAT[2:0], valid with the step that processed an event. -/
  evstat : Option EvStat
  /-- RD_DATA[7:0], valid with a read. -/
  rdData : Option Byte
  /-- SC_CODE, SC_SHIFT, SC_CTRL, when the step calls the collaborator table. -/
  sc     : Option ScQuery
  /-- The answer of an internal primitive run alone. -/
  answer : Answer
deriving DecidableEq, Repr

/-- Nothing on any output port. -/
def Output.silent : Output := ⟨none, none, none, .none⟩

/-- The state of the block and its surroundings. -/
structure State where
  /-- `MATRIX[1..8]` (R21). -/
  matrix : Matrix
  /-- `SLOT[0..5]` (R22). -/
  slots  : Slots
  /-- `MOD`: bit 0 LS, bit 1 RS, bit 2 LC, bit 3 RC (R24). -/
  mod    : BitVec 4
  /-- The configuration KEYMAP, a parameter that no step changes (00_scope.md R5, 20_memory.md R63) (log 1). -/
  keymap : Keymap
  /-- The activity still to come on the input ports, oldest first: the outside world, not a queue of the block (log 4). -/
  inputs : List Activity
  /-- The output ports during the last step (log 5). -/
  out    : Output
deriving DecidableEq, Repr

/-- Why the machine stops: no operation faults (60_exceptions.md R180), so there is no reason. Safe: nothing is left out. -/
inductive Fault where
deriving DecidableEq, Repr

/-- Why an instruction has no meaning. -/
inductive Refusal where
  /-- Raised by an arm of exec whose instruction has no meaning yet (safe: the machine stops). No arm raises it. -/
  | notModelled (mnemonic : String)
deriving DecidableEq, Repr

namespace State

def setMatrix (s : State) (m : Matrix) : State := { s with matrix := m }
def setSlots (s : State) (sl : Slots) : State := { s with slots := sl }
def setMod (s : State) (m : BitVec 4) : State := { s with mod := m }
def setInputs (s : State) (l : List Activity) : State := { s with inputs := l }
def setOut (s : State) (o : Output) : State := { s with out := o }

/-- The state right after RST (R30, R200): every slot empty and zero, MOD zero, every row 0x00. Before the first RST the
state is unspecified (R201) (log 3). The configuration is the opaque one (log 2), nothing is on the ports (logs 4, 5). -/
def reset : State where
  matrix := Vector.replicate 8 0
  slots  := Vector.replicate 6 ⟨false, 0, 0, 0⟩
  mod    := 0
  keymap := Config.keymap
  inputs := []
  out    := Output.silent

end State

end Sys2Proof.Machine
end

