-- ==== Sys2Proof/Machine/Flags.lean ====
section
/-! DEFINITION. The modifier register's bits (10_state.md R24) and the derived signals (R25). -/

namespace Sys2Proof.Machine

/-- The bit of MOD that belongs to a line (R24); the alt keys have none. -/
def modBit : Line → Option (Fin 4)
  | .ls => some 0
  | .rs => some 1
  | .lc => some 2
  | .rc => some 3
  | .alt => none

/-- MOD with the bit of a line written and the other bits kept; a line without a bit writes nothing (R141 to R145). -/
def writeLine (m : BitVec 4) (l : Line) (down : Bool) : BitVec 4 :=
  match modBit l with
  | none => m
  | some i => if down then m ||| (1#4 <<< i.val) else m &&& ~~~(1#4 <<< i.val)

/-- `shift_phys = MOD.LS | MOD.RS` (R25). -/
def shiftPhys (m : BitVec 4) : Bool := m.getLsbD 0 || m.getLsbD 1

/-- `ctrl_down = MOD.LC | MOD.RC` (R25). -/
def ctrlDown (m : BitVec 4) : Bool := m.getLsbD 2 || m.getLsbD 3

/-- The slot indices in ascending order, the order of `for each` (00_scope.md R8). -/
def slotIdx : List (Fin 6) := [0, 1, 2, 3, 4, 5]

/-- `SLOT[i]` (R22). -/
def slot (sl : Slots) (i : Fin 6) : Slot := sl[i]

/-- A write of `SLOT[i]`. -/
def setSlot (sl : Slots) (i : Fin 6) (x : Slot) : Slots := sl.set i x

/-- A slot freed: V is cleared, the other fields keep their bits (R132). -/
def freed (x : Slot) : Slot := ⟨false, x.ovr, x.pos, x.id⟩

/-- `force1`: some held key carries FORCE1 (R25). -/
def force1 (sl : Slots) : Bool := slotIdx.any fun i => (slot sl i).v && (slot sl i).ovr == 0b11#2

/-- `force0`: some held key carries FORCE0 (R25). -/
def force0 (sl : Slots) : Bool := slotIdx.any fun i => (slot sl i).v && (slot sl i).ovr == 0b10#2

/-- `shift_eff`, the value of the SHIFT matrix bit: force-1 wins over force-0 (R25, D14). -/
def shiftEff (sl : Slots) (m : BitVec 4) : Bool :=
  if force1 sl then true else if force0 sl then false else shiftPhys m

/-- The code of a status on EVSTAT[2:0] (R94). -/
def evstatCode : EvStat → BitVec 3
  | .modifier => 0
  | .pressed => 1
  | .released => 2
  | .duplicate => 3
  | .unmapped => 4
  | .full => 5
  | .notHeld => 6
  | .pressedInvRow => 7

end Sys2Proof.Machine
end

