-- ==== Sys2Proof/Machine/Ops.lean ====
section
/-! DEFINITION. The shared operations over the Pressed-Key Set (41_pressed_key_set.md), the matrix register file
(43_matrix_state.md) and the output ports. The block has no exceptions (60_exceptions.md R180, R187, R188): what an ISA's
trap entry would be is here the quiet end of an operation, `State.report` with nothing else written. -/

namespace Sys2Proof.Machine

/-! ### The Pressed-Key Set -/

/-- The first held slot with this identity, if any. R23 (a): there is at most one; the lowest is taken (log 9). -/
def findHeld (sl : Slots) (id : KeyId) : Option (Fin 6) := slotIdx.find? fun i => (slot sl i).v && (slot sl i).id == id

/-- `CONTAINS(id)` (R130). -/
def pksContains (sl : Slots) (id : KeyId) : Bool := slotIdx.any fun i => (slot sl i).v && (slot sl i).id == id

/-- `COUNT`, the number of slots with V = 1 (R133). -/
def pksCount (sl : Slots) : Nat := slotIdx.countP fun i => (slot sl i).v

/-- The lowest free slot; there is none iff COUNT is 6 (R131). -/
def findFree (sl : Slots) : Option (Fin 6) := slotIdx.find? fun i => !(slot sl i).v

/-- `ADD(id, pos, ovr)`: the presence test comes before the capacity test, and only ADDED changes a slot (R131). -/
def pksAdd (sl : Slots) (id : KeyId) (pos : Position) (ovr : Ovr) : AddResult × Slots :=
  if pksContains sl id then (.present, sl)
  else match findFree sl with
    | none => (.full, sl)
    | some i => (.added, setSlot sl i ⟨true, ovr, pos, id⟩)

/-- `REMOVE(id)`: V is cleared, the other fields keep their bits, no other slot moves (R132). -/
def pksRemove (sl : Slots) (id : KeyId) : RemoveResult × Slots :=
  match findHeld sl id with
  | none => (.absent, sl)
  | some i => (.removed, setSlot sl i (freed (slot sl i)))

/-- `PKS_CLEAR`: every field of every slot zero (R134). -/
def pksClear : Slots := Vector.replicate 6 ⟨false, 0, 0, 0⟩

/-- The 24-bit layout of a slot, `{V, OVR[1:0], POS[7:0], ID[12:0]}` (30_encoding.md R89). -/
def slotWord (x : Slot) : BitVec 24 := BitVec.ofBool x.v ++ x.ovr ++ x.pos ++ x.id

/-- The slot a 24-bit word lays out (R89). -/
def slotOfWord (w : BitVec 24) : Slot := ⟨w.getLsbD 23, w.extractLsb' 21 2, w.extractLsb' 13 8, w.extractLsb' 0 13⟩

/-! ### The matrix register file -/

/-- `rowBits(row)`: `MATRIX[row]` for rows 1 to 8, 0x00 for the other row numbers (R56, R172). -/
def rowBits (m : Matrix) (r : RowNum) : Byte :=
  if h : 1 ≤ r.toNat ∧ r.toNat ≤ 8 then m[r.toNat - 1] else 0

/-- A write of one row register; a row number outside 1 to 8 selects none (R170, R171). -/
def writeRow (m : Matrix) (r : RowNum) (b : Byte) : Matrix :=
  if h : 1 ≤ r.toNat ∧ r.toNat ≤ 8 then m.set (r.toNat - 1) b else m

/-- `ASSERT(pos)`: OR the position's mask into its row (R170). -/
def assertBits (K : Keymap) (pos : Position) (m : Matrix) : Matrix :=
  writeRow m (rowOf pos) (rowBits m (rowOf pos) ||| maskOf K pos)

/-- `CLEAR(pos)`: clear the position's mask in its row (R171). -/
def clearBits (K : Keymap) (pos : Position) (m : Matrix) : Matrix :=
  writeRow m (rowOf pos) (rowBits m (rowOf pos) &&& ~~~(maskOf K pos))

/-- `CLEARALL` (R173). -/
def clearedMatrix : Matrix := Vector.replicate 8 0

/-- The held keys' bits, asserted in slot order into a cleared file: the loop of REBUILD (R174). -/
def keysMatrix (K : Keymap) (sl : Slots) : Matrix :=
  slotIdx.foldl (fun m i => if (slot sl i).v then assertBits K (slot sl i).pos m else m) clearedMatrix

/-- `REBUILD` as a function of the slots and MOD: CLEARALL, the held keys, then the SHIFT bit (R174). -/
def rebuiltMatrix (K : Keymap) (sl : Slots) (md : BitVec 4) : Matrix :=
  if shiftEff sl md then assertBits K K.shiftPos (keysMatrix K sl) else keysMatrix K sl

/-- `REBUILD` on the state: the slots and MOD as the operation's earlier writes left them (00_scope.md R8, R174). -/
def State.rebuild (s : State) : State := s.setMatrix (rebuiltMatrix s.keymap s.slots s.mod)

/-! ### The output ports -/

/-- End an event operation with a status on EVSTAT; `q` is the question put to SC2ASCII, if the operation asked (R94, R114). -/
def State.report (s : State) (st : EvStat) (q : Option ScQuery) : State :=
  s.setOut { Output.silent with evstat := some st, sc := q }

/-- End an internal primitive with its answer. -/
def State.answer (s : State) (a : Answer) : State := s.setOut { Output.silent with answer := a }

/-- The question SC2ASCII is asked for a code: the physical modifier state, never `shift_eff` (R114, D15). -/
def State.query (s : State) (code : Code) : ScQuery := ⟨spKey code, shiftPhys s.mod, ctrlDown s.mod⟩

/-! ### What the event operations share -/

/-- The end of a make that resolved to a position: ADD, then DUPLICATE or FULL with nothing changed, or REBUILD and PRESSED
(PRESSED_INVROW if the row field is outside 1 to 8) (42_interpreter.md R146, R147, R183). -/
def press (id : KeyId) (pos : Position) (ovr : Ovr) (q : Option ScQuery) (s : State) : State :=
  match pksAdd s.slots id pos ovr with
  | (.present, _) => s.report .duplicate q
  | (.full, _) => s.report .full q
  | (.added, sl) => ((s.setSlots sl).rebuild).report (if rowOk pos then .pressed else .pressedInvRow) q

/-- A shift key's transition: write its MOD bit, REBUILD (R141, R142). -/
def shiftKey (m : ShiftKey) (down : Bool) (s : State) : State :=
  ((s.setMod (writeLine s.mod (shiftLine m) down)).rebuild).report .modifier none

/-- A control key's transition: write its MOD bit; the matrix stays (R143, R144). -/
def ctrlKey (m : CtrlKey) (down : Bool) (s : State) : State :=
  (s.setMod (writeLine s.mod (ctrlLine m) down)).report .modifier none

/-- An alt key's transition: consumed, no state is written (R145). -/
def altKey (s : State) : State := s.report .modifier none

/-- `SPECIAL.MK(code)` (R146). With a code the special table does not hold, which R90 never selects, the make is dropped as
unmapped. DESIGN CHOICE (log 11). -/
def specialMake (code : Code) (s : State) : State :=
  match lookupSpecial s.keymap (spKey code) with
  | none => s.report .unmapped none
  | some pos => if unmapped pos then s.report .unmapped none else press (keyId code) pos 0#2 none s

/-- `PRINT.MK(code)` (R147). -/
def printMake (code : Code) (s : State) : State :=
  match sc2ascii s.keymap (s.query code) with
  | none => s.report .unmapped (some (s.query code))
  | some a =>
    match lookupAscii s.keymap a with
    | none => s.report .unmapped (some (s.query code))
    | some pos => press (keyId code) pos (lookupOvr s.keymap a) (some (s.query code)) s

/-- `KEY.BR(id)`: by identity alone, no table is consulted (R148). -/
def keyBreak (id : KeyId) (s : State) : State :=
  match pksRemove s.slots id with
  | (.absent, _) => s.report .notHeld none
  | (.removed, sl) => ((s.setSlots sl).rebuild).report .released none

/-- `EVENT(code)`, the hardware's dispatch (R140). -/
def runEvent (code : Code) (s : State) : State :=
  match lookupMod s.keymap (keyId code) with
  | some .ls => shiftKey .left (!rel code) s
  | some .rs => shiftKey .right (!rel code) s
  | some .lc => ctrlKey .left (!rel code) s
  | some .rc => ctrlKey .right (!rel code) s
  | some .alt => altKey s
  | none =>
    if rel code then keyBreak (keyId code) s
    else match lookupSpecial s.keymap (spKey code) with
      | some _ => specialMake code s
      | none => printMake code s

/-- `RST`: PKS_CLEAR, MOD zero, CLEARALL; EVSTAT is not produced (70_reset_and_hazards.md R200). -/
def resetOp (s : State) : State :=
  (((s.setSlots pksClear).setMod 0).setMatrix clearedMatrix).setOut Output.silent

end Sys2Proof.Machine
end

