-- ==== Sys2Proof/Machine/Interpreter.lean ====
section
/-! DEFINITION. The event operations (42_interpreter.md), each one atomic step. -/

namespace Sys2Proof.Machine

/-- R141. -/
def execShiftMk (m : ShiftKey) (s : State) : Host.Outcome State Fault Refusal := .next (shiftKey m true s)

/-- R142. -/
def execShiftBr (m : ShiftKey) (s : State) : Host.Outcome State Fault Refusal := .next (shiftKey m false s)

/-- R143. -/
def execCtrlMk (m : CtrlKey) (s : State) : Host.Outcome State Fault Refusal := .next (ctrlKey m true s)

/-- R144. -/
def execCtrlBr (m : CtrlKey) (s : State) : Host.Outcome State Fault Refusal := .next (ctrlKey m false s)

/-- R145, make. -/
def execAltMk (s : State) : Host.Outcome State Fault Refusal := .next (altKey s)

/-- R145, break. -/
def execAltBr (s : State) : Host.Outcome State Fault Refusal := .next (altKey s)

/-- R146. -/
def execSpecialMk (code : Code) (s : State) : Host.Outcome State Fault Refusal := .next (specialMake code s)

/-- R147. -/
def execPrintMk (code : Code) (s : State) : Host.Outcome State Fault Refusal := .next (printMake code s)

/-- R148. -/
def execKeyBr (id : KeyId) (s : State) : Host.Outcome State Fault Refusal := .next (keyBreak id s)

/-- R140. -/
def execEvent (code : Code) (s : State) : Host.Outcome State Fault Refusal := .next (runEvent code s)

end Sys2Proof.Machine
end

