-- ==== Sys2Proof/Machine/Keymaps.lean ====
section
/-! DEFINITION. The keymap table primitives as instructions (40_keymap_tables.md): each answers and writes no state. -/

namespace Sys2Proof.Machine

/-- R110. -/
def execLookupAscii (a : Byte) (s : State) : Host.Outcome State Fault Refusal :=
  .next (s.answer (.position (lookupAscii s.keymap a)))

/-- R111. -/
def execLookupSpecial (k : SpKey) (s : State) : Host.Outcome State Fault Refusal :=
  .next (s.answer (.position (lookupSpecial s.keymap k)))

/-- R112. -/
def execLookupMod (id : KeyId) (s : State) : Host.Outcome State Fault Refusal :=
  .next (s.answer (.line (lookupMod s.keymap id)))

/-- R113. -/
def execLookupOvr (a : Byte) (s : State) : Host.Outcome State Fault Refusal :=
  .next (s.answer (.override (lookupOvr s.keymap a)))

/-- R114: the collaborator port is driven with the operands and its answer comes back in the same step. -/
def execSc2ascii (k : SpKey) (sh ct : Bool) (s : State) : Host.Outcome State Fault Refusal :=
  .next (s.setOut { Output.silent with
    sc := some ⟨k, sh, ct⟩, answer := .ascii (sc2ascii s.keymap ⟨k, sh, ct⟩) })

/-- R115: SC2ASCII is called only when the special table does not know the key. -/
def execResolve (code : Code) (s : State) : Host.Outcome State Fault Refusal :=
  .next (s.setOut { Output.silent with
    sc := resolveQuery s.keymap code (shiftPhys s.mod) (ctrlDown s.mod),
    answer := .resolved (resolve s.keymap code (shiftPhys s.mod) (ctrlDown s.mod)) })

end Sys2Proof.Machine
end

