-- ==== Sys2Proof/Machine/MatrixFile.lean ====
section
/-! DEFINITION. The matrix primitives and the two port operations on the register file (43_matrix_state.md,
70_reset_and_hazards.md): RD and RST. -/

namespace Sys2Proof.Machine

/-- R170. -/
def execAssertPos (pos : Position) (s : State) : Host.Outcome State Fault Refusal :=
  .next ((s.setMatrix (assertBits s.keymap pos s.matrix)).answer .none)

/-- R171. -/
def execClearPos (pos : Position) (s : State) : Host.Outcome State Fault Refusal :=
  .next ((s.setMatrix (clearBits s.keymap pos s.matrix)).answer .none)

/-- R173. -/
def execClearAll (s : State) : Host.Outcome State Fault Refusal :=
  .next ((s.setMatrix clearedMatrix).answer .none)

/-- R174. -/
def execRebuild (s : State) : Host.Outcome State Fault Refusal := .next (s.rebuild.answer .none)

/-- R172: the row appears on RD_DATA and no state changes. -/
def execRd (row : RowNum) (s : State) : Host.Outcome State Fault Refusal :=
  .next (s.setOut { Output.silent with rdData := some (rowBits s.matrix row) })

/-- R200. -/
def execRst (s : State) : Host.Outcome State Fault Refusal := .next (resetOp s)

end Sys2Proof.Machine
end

