-- ==== Sys2Proof/Machine/PressedKeys.lean ====
section
/-! DEFINITION. The Pressed-Key Set primitives as instructions (41_pressed_key_set.md): they write slots and nothing else. -/

namespace Sys2Proof.Machine

/-- R130. -/
def execContains (id : KeyId) (s : State) : Host.Outcome State Fault Refusal :=
  .next (s.answer (.bit (pksContains s.slots id)))

/-- R131. -/
def execAdd (id : KeyId) (pos : Position) (ovr : Ovr) (s : State) : Host.Outcome State Fault Refusal :=
  .next ((s.setSlots (pksAdd s.slots id pos ovr).2).answer (.add (pksAdd s.slots id pos ovr).1))

/-- R132. -/
def execRemove (id : KeyId) (s : State) : Host.Outcome State Fault Refusal :=
  .next ((s.setSlots (pksRemove s.slots id).2).answer (.remove (pksRemove s.slots id).1))

/-- R133. -/
def execCount (s : State) : Host.Outcome State Fault Refusal :=
  .next (s.answer (.count (pksCount s.slots)))

/-- R134. -/
def execPksClear (s : State) : Host.Outcome State Fault Refusal :=
  .next ((s.setSlots pksClear).answer .none)

end Sys2Proof.Machine
end

