-- ==== Sys2Proof/Machine/Dispatch.lean ====
section
/-! DEFINITION. One arm per operation: every one calls its meaning. -/

namespace Sys2Proof.Machine

def exec (i : Instr) (s : State) : Host.Outcome State Fault Refusal :=
  match i with
  | .shiftMk m => Sys2Proof.Machine.execShiftMk m s
  | .shiftBr m => Sys2Proof.Machine.execShiftBr m s
  | .ctrlMk m => Sys2Proof.Machine.execCtrlMk m s
  | .ctrlBr m => Sys2Proof.Machine.execCtrlBr m s
  | .altMk => Sys2Proof.Machine.execAltMk s
  | .altBr => Sys2Proof.Machine.execAltBr s
  | .specialMk code => Sys2Proof.Machine.execSpecialMk code s
  | .printMk code => Sys2Proof.Machine.execPrintMk code s
  | .keyBr id => Sys2Proof.Machine.execKeyBr id s
  | .event code => Sys2Proof.Machine.execEvent code s
  | .rd row => Sys2Proof.Machine.execRd row s
  | .rst => Sys2Proof.Machine.execRst s
  | .lookupAscii a => Sys2Proof.Machine.execLookupAscii a s
  | .lookupSpecial k => Sys2Proof.Machine.execLookupSpecial k s
  | .lookupMod id => Sys2Proof.Machine.execLookupMod id s
  | .lookupOvr a => Sys2Proof.Machine.execLookupOvr a s
  | .sc2ascii k sh ct => Sys2Proof.Machine.execSc2ascii k sh ct s
  | .resolve code => Sys2Proof.Machine.execResolve code s
  | .contains id => Sys2Proof.Machine.execContains id s
  | .add id pos ovr => Sys2Proof.Machine.execAdd id pos ovr s
  | .remove id => Sys2Proof.Machine.execRemove id s
  | .count => Sys2Proof.Machine.execCount s
  | .pksClear => Sys2Proof.Machine.execPksClear s
  | .assertPos pos => Sys2Proof.Machine.execAssertPos pos s
  | .clearPos pos => Sys2Proof.Machine.execClearPos pos s
  | .clearAll => Sys2Proof.Machine.execClearAll s
  | .rebuild => Sys2Proof.Machine.execRebuild s

end Sys2Proof.Machine
end

