-- ==== Sys2Proof/Machine/Step.lean ====
section
/-! DEFINITION. One step of the block: the oldest activity on the input ports is taken and its operation run to completion
(00_scope.md R9, 20_memory.md R61). -/

namespace Sys2Proof.Machine

/-- One step. With no activity the block is idle with its state held and its outputs silent (60_exceptions.md R196)
(log 16). -/
def step (s : State) : Host.Outcome State Fault Refusal :=
  match s.inputs with
  | [] => .next (s.setOut Output.silent)
  | a :: rest => exec a.instr (s.setInputs rest)

/-- The activity a table word stands for, put in front of the activity to come, so that the next step runs it; a width that
names no port (an internal primitive has no encoding) changes nothing (logs 6, 7). -/
def State.withFetchWord (s : State) (nbits w : Nat) : State :=
  match tableActivity nbits w with
  | none => s
  | some a => s.setInputs (a :: s.inputs)

end Sys2Proof.Machine
end

