-- ==== Sys2Proof/Machine/Incremental.lean ====
section
/-! DEFINITION. The incremental form of the matrix update (43_matrix_state.md R175), for an implementation that does not
rebuild: single-port ASSERT and CLEAR updates from the difference of two slot files. No operation of the machine uses it;
R174's rebuild is the definition, and the two are compared. -/

namespace Sys2Proof.Machine

/-- Two positions are the same when they decode to the same row and mask (R175). -/
def samePlace (K : Keymap) (p q : Position) : Bool := rowOf p == rowOf q && maskOf K p == maskOf K q

/-- Some held key decodes to the same row and mask. -/
def placeHeld (K : Keymap) (sl : Slots) (p : Position) : Bool :=
  slotIdx.any fun i => (slot sl i).v && samePlace K (slot sl i).pos p

/-- Clauses (a) and (b): a slot filled asserts its position, a slot freed clears the position it held unless a key still held
decodes to the same place. -/
def incrementalKey (K : Keymap) (old new : Slots) (m : Matrix) (i : Fin 6) : Matrix :=
  if !(slot old i).v && (slot new i).v then assertBits K (slot new i).pos m
  else if (slot old i).v && !(slot new i).v && !placeHeld K new (slot old i).pos then clearBits K (slot old i).pos m
  else m

/-- Clause (c): a change of `shift_eff` asserts or clears SHIFT_POS. -/
def incrementalShift (K : Keymap) (before after : Bool) (m : Matrix) : Matrix :=
  if !before && after then assertBits K K.shiftPos m
  else if before && !after then clearBits K K.shiftPos m
  else m

/-- The incremental update of the matrix between two states of the slots and MOD. -/
def incrementalMatrix (K : Keymap) (old new : Slots) (mdOld mdNew : BitVec 4) (m : Matrix) : Matrix :=
  incrementalShift K (shiftEff old mdOld) (shiftEff new mdNew) (slotIdx.foldl (incrementalKey K old new) m)

end Sys2Proof.Machine
end

