-- ==== Sys2Proof/Safety.lean ====
section
/-! DEFINITION. What holds of the block between operations, in the terms the claims use: the invariants of 10_state.md R22,
R23 and R29, and when two states cannot be told apart from outside (R23 (c)). -/

namespace Sys2Proof.Machine

/-- `KEYBITS(r)`: the OR of the masks of the held keys whose row field is `r` (R29). -/
def keyBits (K : Keymap) (sl : Slots) (r : RowNum) : Byte :=
  slotIdx.foldr (fun i b => (if (slot sl i).v && rowOf (slot sl i).pos == r then maskOf K (slot sl i).pos else 0) ||| b) 0

/-- `SHIFTBITS(r)` (R29). -/
def shiftBits (K : Keymap) (sl : Slots) (md : BitVec 4) (r : RowNum) : Byte :=
  if shiftEff sl md && rowOf K.shiftPos == r then maskOf K K.shiftPos else 0

/-- R29: every row is exactly the held keys' bits and the SHIFT bit. -/
def State.Mirrors (s : State) : Prop :=
  ∀ r : RowNum, validRow r = true →
    rowBits s.matrix r = keyBits s.keymap s.slots r ||| shiftBits s.keymap s.slots s.mod r

/-- R23 (a): no two held slots have the same identity. -/
def Distinct (sl : Slots) : Prop :=
  ∀ i j : Fin 6, (slot sl i).v = true → (slot sl j).v = true → (slot sl i).id = (slot sl j).id → i = j

/-- The identity is in the Pressed-Key Set (R130). -/
def Held (sl : Slots) (id : KeyId) : Prop := ∃ i : Fin 6, (slot sl i).v = true ∧ (slot sl i).id = id

/-- COUNT = 6 (R133). -/
def Full (sl : Slots) : Prop := ∀ i : Fin 6, (slot sl i).v = true

/-- `i` is the lowest index with V = 0 (R131). -/
def LowestFree (sl : Slots) (i : Fin 6) : Prop :=
  (slot sl i).v = false ∧ ∀ j : Fin 6, j < i → (slot sl j).v = true

/-- A make of a key that is no modifier: SPECIAL.MK or PRINT.MK (R90 rows 4 and 5). -/
def KeyMake (K : Keymap) (code : Code) : Prop := lookupMod K (keyId code) = none ∧ rel code = false

/-- What the make of a code resolves to with the state's modifier keys (R115). -/
def State.resolution (s : State) (code : Code) : Option (Position × Ovr) :=
  resolve s.keymap code (shiftPhys s.mod) (ctrlDown s.mod)

/-- Bit `c` of row `r` belongs to the SHIFT position (R29). -/
def ShiftPlace (K : Keymap) (r : RowNum) (c : Nat) : Prop :=
  rowOf K.shiftPos = r ∧ (maskOf K K.shiftPos).getLsbD c = true

/-- Bit `c` of row `r` belongs to a position (R84). -/
def KeyPlace (K : Keymap) (pos : Position) (r : RowNum) (c : Nat) : Prop :=
  rowOf pos = r ∧ (maskOf K pos).getLsbD c = true

/-- Nothing but the output ports differs: what a dropped operation leaves (60_exceptions.md R187). -/
def State.Unchanged (s t : State) : Prop :=
  t.matrix = s.matrix ∧ t.slots = s.slots ∧ t.mod = s.mod ∧ t.keymap = s.keymap ∧ t.inputs = s.inputs

/-- What every operation keeps of the state (R22, R23, R29, R88). -/
structure State.Inv (s : State) : Prop where
  /-- R29. -/
  mirrors : s.Mirrors
  /-- R23 (a). -/
  distinct : Distinct s.slots
  /-- R23 (e): no modifier key is in the set. -/
  noModifier : ∀ i : Fin 6, (slot s.slots i).v = true → lookupMod s.keymap (slot s.slots i).id = none
  /-- R22: a held key's position is one its make resolved to, so a mapped table entry. -/
  fromTables : ∀ i : Fin 6, (slot s.slots i).v = true →
    (slot s.slots i).pos ∈ s.keymap.tablePositions ∧ unmapped (slot s.slots i).pos = false
  /-- R88: an override `01` never occurs in a slot. -/
  ovrLegal : ∀ i : Fin 6, (slot s.slots i).v = true → (slot s.slots i).ovr ≠ 0b01#2

/-- The held keys without their slot numbers and without the bits of free slots: the Pressed-Key Set as a set (R23 (c)). -/
def heldKeys (sl : Slots) : List (KeyId × Position × Ovr) :=
  slotIdx.filterMap fun i => if (slot sl i).v then some ((slot sl i).id, (slot sl i).pos, (slot sl i).ovr) else none

/-- Two states that hold the same keys, wherever in the slots, and agree in everything else. -/
structure SameSet (s t : State) : Prop where
  keys : (heldKeys s.slots).Perm (heldKeys t.slots)
  matrix : s.matrix = t.matrix
  mod : s.mod = t.mod
  keymap : s.keymap = t.keymap
  inputs : s.inputs = t.inputs
  out : s.out = t.out

/-- No key and no shift key is down (R29). -/
def State.AllUp (s : State) : Prop := (∀ i : Fin 6, (slot s.slots i).v = false) ∧ shiftPhys s.mod = false

end Sys2Proof.Machine
end

