-- ==== Sys2Proof/Certificates/Slice0/Obligations.lean ====
section
/-! DEFINITION. The statements for the provers, from the numbered rules of spec/. -/

open Sys2Proof Sys2Proof.Machine

/-! ### Decoding -/

/-- Sample words: field extraction and position decode of 95_test_vectors.md section 3.1, the ports' words, and one code for
each row of R90's table under two-table contents of configuration T1. -/
def Obligations.SampleWordsDecode : Prop :=
  (rel 0xC041 = true ∧ shc 0xC041 = true ∧ ctc 0xC041 = false ∧ keyId 0xC041 = 0x0041 ∧ spKey 0xC041 = 0x4041) ∧
  (rel 0x3FFF = false ∧ shc 0x3FFF = false ∧ ctc 0x3FFF = true ∧ keyId 0x3FFF = 0x1FFF ∧ spKey 0x3FFF = 0x3FFF) ∧
  (rowOf 0x28 = 2 ∧ colF 0x28 = 8 ∧ rowOk 0x28 = true ∧ rowOk 0x91 = false ∧ rowOk 0x01 = false) ∧
  decode .event 0xC041 = .ok (.event 0xC041) ∧ decode .event 0x10000 = .error .codeTooWide ∧
  decode .read 8 = .ok (.rd 8) ∧ decode .read 16 = .error .rowTooWide ∧
  decode .reset 1 = .ok .rst ∧ decode .reset 0 = .error .resetInactive ∧
  ∀ K : Keymap, K.romMod = [0x0006, 0x2007, 0x4008, 0x6108, 0x800A, 0xE10A] → K.romSpecial = [0x001E61, 0x0029FF] →
    select K 0x0006 = .shiftMk .left ∧ select K 0xC007 = .shiftBr .right ∧ select K 0x2008 = .ctrlMk .left ∧
    select K 0x8108 = .ctrlBr .right ∧ select K 0x000A = .altMk ∧ select K 0x810A = .altBr ∧
    select K 0x001E = .specialMk 0x001E ∧ select K 0x401E = .printMk 0x401E ∧ select K 0x0041 = .printMk 0x0041 ∧
    select K 0xE029 = .keyBr 0x0029

/-- R90's table: which operation a code selects, the rows in order, and nothing but those nine. -/
def Obligations.SelectionFollowsTable : Prop :=
  ∀ (K : Keymap) (code : Code),
    (∀ m, lookupMod K (keyId code) = some (shiftLine m) →
      select K code = if rel code then .shiftBr m else .shiftMk m) ∧
    (∀ m, lookupMod K (keyId code) = some (ctrlLine m) →
      select K code = if rel code then .ctrlBr m else .ctrlMk m) ∧
    (lookupMod K (keyId code) = some .alt → select K code = if rel code then .altBr else .altMk) ∧
    (lookupMod K (keyId code) = none → rel code = true → select K code = .keyBr (keyId code)) ∧
    (lookupMod K (keyId code) = none → rel code = false →
      ((lookupSpecial K (spKey code)).isSome = true → select K code = .specialMk code) ∧
      (lookupSpecial K (spKey code) = none → select K code = .printMk code)) ∧
    (select K code).wf K = true ∧ (select K code).internal = false

/-- Decode and encode agree: every well-formed instruction that is no internal primitive has a word on a port, and the word
decodes to it; for an event operation through the selection of R90, for EVENT, RD and RST at once. -/
def Obligations.DecodeOfEncode : Prop :=
  ∀ (K : Keymap) (i : Instr), i.wf K = true → i.internal = false →
    ∃ p w, encode K i = some (p, w) ∧
      match i with
      | .event _ => decode p w = .ok i
      | _ => decodeOp K p w = .ok i

/-- The 24-bit layout of a slot (R89) loses nothing in either direction. -/
def Obligations.SlotLayoutIsExact : Prop :=
  (∀ x : Slot, slotOfWord (slotWord x) = x) ∧ (∀ w : BitVec 24, slotWord (slotOfWord w) = w)

/-! ### The step -/

/-- A step runs the instruction that the oldest activity's word decodes to, with that activity taken; with no activity the
block idles. -/
def Obligations.StepRunsDecodedInstruction : Prop :=
  ∀ s : State,
    (∀ a rest, s.inputs = a :: rest →
      ∃ i, decode a.port a.word = .ok i ∧ step s = exec i (s.setInputs rest)) ∧
    (s.inputs = [] → step s = .next (s.setOut Output.silent))

/-- RST wins over a simultaneous event, whose code is discarded (R186, R202, D20). That one reset activity carries the discarded
code is log 14; that the activity behind it stays is logs 4 and 16; the silent outputs are log 5. -/
def Obligations.ResetDiscardsSimultaneousEvent : Prop :=
  ∀ (s : State) (d : Option Code) (rest : List Activity), s.inputs = .reset d :: rest →
    ∃ t, step s = .next t ∧ exec .rst (s.setInputs rest) = .next t ∧ t.inputs = rest ∧ t.out = Output.silent

/-- A read that follows an event sees the whole event and changes nothing (R61). -/
def Obligations.ReadSeesCompletedEvent : Prop :=
  ∀ (s : State) (code : Code) (row : RowNum) (rest : List Activity), s.inputs = .event code :: .read row :: rest →
    ∃ t u, step s = .next t ∧ exec (.event code) (s.setInputs (.read row :: rest)) = .next t ∧ step t = .next u ∧
      u.out = { Output.silent with rdData := some (rowBits t.matrix row) } ∧
      u.matrix = t.matrix ∧ u.slots = t.slots ∧ u.mod = t.mod ∧ u.inputs = rest

/-- No operation and no step stops. -/
def Obligations.EveryOperationEnds : Prop :=
  (∀ (i : Instr) (s : State), ∃ t, exec i s = .next t) ∧ ∀ s : State, ∃ t, step s = .next t

/-- The tables are the same in every step (R63). That no instruction, RST included, touches the activity to come is the model's
own choice (logs 4 and 16). -/
def Obligations.TablesNeverChange : Prop :=
  (∀ (i : Instr) (s t : State), exec i s = .next t → t.keymap = s.keymap ∧ t.inputs = s.inputs) ∧
  ∀ s t : State, step s = .next t → t.keymap = s.keymap

/-- EVSTAT and the other outputs feed back into nothing. -/
def Obligations.OutputsFeedBackIntoNothing : Prop :=
  (∀ (i : Instr) (s : State) (o : Output), exec i (s.setOut o) = exec i s) ∧
  ∀ (s : State) (o : Output), step (s.setOut o) = step s

/-! ### The keymap tables -/

/-- LOOKUP_ASCII (R110): NONE outside 0x20..0x7E, NONE for an entry 0xFF, else the entry; the two cases of a letter answer
alike when the ROM is well formed. -/
def Obligations.LookupAsciiAnswer : Prop :=
  ∀ (s : State) (a : Byte),
    ((a.toNat < 0x20 ∨ 0x7E < a.toNat) → exec (.lookupAscii a) s = .next (s.answer (.position none))) ∧
    (∀ _ : 0x20 ≤ a.toNat ∧ a.toNat ≤ 0x7E,
      (s.keymap.romAscii[a.toNat - 0x20] = 0xFF#8 → exec (.lookupAscii a) s = .next (s.answer (.position none))) ∧
      (s.keymap.romAscii[a.toNat - 0x20] ≠ 0xFF#8 →
        exec (.lookupAscii a) s = .next (s.answer (.position (some s.keymap.romAscii[a.toNat - 0x20]))))) ∧
    (s.keymap.wfLetters = true → 0x41 ≤ a.toNat → a.toNat ≤ 0x5A →
      exec (.lookupAscii a) s = exec (.lookupAscii (a + 0x20)) s)

/-- LOOKUP_SPECIAL (R111): the entry whose KEY[14:0] is the operand, the lowest such entry (D16), NONE when there is none. -/
def Obligations.LookupSpecialAnswer : Prop :=
  ∀ (s : State) (k : SpKey),
    (∀ (i : Nat) (_ : i < s.keymap.romSpecial.length), (s.keymap.romSpecial[i]).extractLsb' 8 15 = k →
      (∀ (j : Nat) (_ : j < i), (s.keymap.romSpecial[j]).extractLsb' 8 15 ≠ k) →
      exec (.lookupSpecial k) s =
        .next (s.answer (.position (some ((s.keymap.romSpecial[i]).extractLsb' 0 8))))) ∧
    ((∀ e ∈ s.keymap.romSpecial, e.extractLsb' 8 15 ≠ k) →
      exec (.lookupSpecial k) s = .next (s.answer (.position none)))

/-- LOOKUP_MOD (R112): the LINE of the lowest entry with this identity, codes 4 to 7 as ALT (D5), NONE when there is none. -/
def Obligations.LookupModAnswer : Prop :=
  ∀ (s : State) (id : KeyId),
    (∀ (i : Nat) (_ : i < s.keymap.romMod.length), (s.keymap.romMod[i]).extractLsb' 0 13 = id →
      (∀ (j : Nat) (_ : j < i), (s.keymap.romMod[j]).extractLsb' 0 13 ≠ id) →
      ∃ l, exec (.lookupMod id) s = .next (s.answer (.line (some l))) ∧
        ((s.keymap.romMod[i]).extractLsb' 13 3 = 0 → l = .ls) ∧ ((s.keymap.romMod[i]).extractLsb' 13 3 = 1 → l = .rs) ∧
        ((s.keymap.romMod[i]).extractLsb' 13 3 = 2 → l = .lc) ∧ ((s.keymap.romMod[i]).extractLsb' 13 3 = 3 → l = .rc) ∧
        (4 ≤ ((s.keymap.romMod[i]).extractLsb' 13 3).toNat → l = .alt)) ∧
    ((∀ e ∈ s.keymap.romMod, e.extractLsb' 0 13 ≠ id) → exec (.lookupMod id) s = .next (s.answer (.line none)))

/-- LOOKUP_OVR (R113, D14): FORCE0 and FORCE1 entries as they are, NONE for every other entry and outside 0x20..0x7E. -/
def Obligations.LookupOvrAnswer : Prop :=
  ∀ (s : State) (a : Byte),
    ((a.toNat < 0x20 ∨ 0x7E < a.toNat) → exec (.lookupOvr a) s = .next (s.answer (.override 0b00))) ∧
    (∀ _ : 0x20 ≤ a.toNat ∧ a.toNat ≤ 0x7E,
      (s.keymap.romOvr[a.toNat - 0x20] = 0b10#2 → exec (.lookupOvr a) s = .next (s.answer (.override 0b10))) ∧
      (s.keymap.romOvr[a.toNat - 0x20] = 0b11#2 → exec (.lookupOvr a) s = .next (s.answer (.override 0b11))) ∧
      (s.keymap.romOvr[a.toNat - 0x20] = 0b00#2 ∨ s.keymap.romOvr[a.toNat - 0x20] = 0b01#2 →
        exec (.lookupOvr a) s = .next (s.answer (.override 0b00))))

/-- SC2ASCII (R114, D15): the port is driven with the operands, and the collaborator's table answers. That the table is a
list whose first entry counts is the model's choice (log 8). -/
def Obligations.Sc2asciiAnswer : Prop :=
  ∀ (s : State) (k : SpKey) (sh ct : Bool),
    ∃ r, exec (.sc2ascii k sh ct) s =
        .next (s.setOut { Output.silent with sc := some ⟨k, sh, ct⟩, answer := .ascii r }) ∧
      (∀ (i : Nat) (_ : i < s.keymap.sc2ascii.length), (s.keymap.sc2ascii[i]).1 = ⟨k, sh, ct⟩ →
        (∀ (j : Nat) (_ : j < i), (s.keymap.sc2ascii[j]).1 ≠ ⟨k, sh, ct⟩) → r = some (s.keymap.sc2ascii[i]).2) ∧
      ((∀ e ∈ s.keymap.sc2ascii, e.1 ≠ ⟨k, sh, ct⟩) → r = none)

/-- RESOLVE (R115, D30): the special table first, its 0xFF ending the resolution; then the ASCII path, with the physical
modifier state; the collaborator is asked only on the ASCII path. -/
def Obligations.ResolveAnswer : Prop :=
  ∀ (s : State) (code : Code),
    (lookupSpecial s.keymap (spKey code) = some 0xFF#8 →
      exec (.resolve code) s = .next (s.answer (.resolved none))) ∧
    (∀ p, lookupSpecial s.keymap (spKey code) = some p → p ≠ 0xFF#8 →
      exec (.resolve code) s = .next (s.answer (.resolved (some (p, 0b00))))) ∧
    (lookupSpecial s.keymap (spKey code) = none →
      ∃ r, exec (.resolve code) s =
          .next (s.setOut { Output.silent with
            sc := some ⟨spKey code, shiftPhys s.mod, ctrlDown s.mod⟩, answer := .resolved r }) ∧
        (sc2ascii s.keymap ⟨spKey code, shiftPhys s.mod, ctrlDown s.mod⟩ = none → r = none) ∧
        (∀ a, sc2ascii s.keymap ⟨spKey code, shiftPhys s.mod, ctrlDown s.mod⟩ = some a →
          (lookupAscii s.keymap a = none → r = none) ∧
          (∀ p, lookupAscii s.keymap a = some p → r = some (p, lookupOvr s.keymap a))))

/-! ### The Pressed-Key Set -/

/-- CONTAINS (R130): 1 iff some slot has V = 1 and this ID; POS and OVR take no part. -/
def Obligations.ContainsAnswer : Prop :=
  ∀ (s : State) (id : KeyId),
    ((∃ i : Fin 6, (slot s.slots i).v = true ∧ (slot s.slots i).id = id) →
      exec (.contains id) s = .next (s.answer (.bit true))) ∧
    ((∀ i : Fin 6, (slot s.slots i).v = true → (slot s.slots i).id ≠ id) →
      exec (.contains id) s = .next (s.answer (.bit false)))

/-- ADD (R131, lowest free index D8): PRESENT before FULL, both changing nothing; ADDED fills the lowest free slot. -/
def Obligations.AddAnswerAndSlots : Prop :=
  ∀ (s : State) (id : KeyId) (pos : Position) (ovr : Ovr),
    (Held s.slots id → exec (.add id pos ovr) s = .next (s.answer (.add .present))) ∧
    (¬Held s.slots id → Full s.slots → exec (.add id pos ovr) s = .next (s.answer (.add .full))) ∧
    (∀ i, ¬Held s.slots id → LowestFree s.slots i →
      exec (.add id pos ovr) s =
        .next ((s.setSlots (setSlot s.slots i ⟨true, ovr, pos, id⟩)).answer (.add .added)))

/-- REMOVE (R132): V of the one slot with this identity is cleared, its other bits and the other slots stay; ABSENT changes
nothing; a second REMOVE answers ABSENT. -/
def Obligations.RemoveAnswerAndSlots : Prop :=
  ∀ (s : State) (id : KeyId),
    (∀ i, Distinct s.slots → (slot s.slots i).v = true → (slot s.slots i).id = id →
      ∃ t, exec (.remove id) s = .next t ∧
        t = (s.setSlots (setSlot s.slots i
          ⟨false, (slot s.slots i).ovr, (slot s.slots i).pos, (slot s.slots i).id⟩)).answer (.remove .removed) ∧
        exec (.remove id) t = .next (t.answer (.remove .absent))) ∧
    (¬Held s.slots id → exec (.remove id) s = .next (s.answer (.remove .absent)))

/-- COUNT (R133): the number of slots with V = 1, 0..6; the set is full iff it is 6. -/
def Obligations.CountAnswer : Prop :=
  ∀ s : State,
    exec .count s =
      .next (s.answer (.count (Finset.univ.filter fun i : Fin 6 => (slot s.slots i).v = true).card)) ∧
    ((Finset.univ.filter fun i : Fin 6 => (slot s.slots i).v = true).card = 6 ↔ Full s.slots)

/-- PKS_CLEAR (R134): V, OVR, POS and ID of every slot zero; the rows and MOD stay. -/
def Obligations.PksClearEmptiesEverySlot : Prop :=
  ∀ s : State, ∃ t, exec .pksClear s = .next t ∧ (∀ i : Fin 6, slot t.slots i = ⟨false, 0, 0, 0⟩) ∧
    t.matrix = s.matrix ∧ t.mod = s.mod ∧ t.keymap = s.keymap ∧ t.inputs = s.inputs

/-! ### The matrix -/

/-- ASSERT (R170): the mask is ORed into the position's row, rows outside 1 to 8 do nothing, repeating it changes nothing. -/
def Obligations.AssertOrsMaskIntoRow : Prop :=
  ∀ (s : State) (pos : Position), ∃ t, exec (.assertPos pos) s = .next t ∧
    t.slots = s.slots ∧ t.mod = s.mod ∧ t.keymap = s.keymap ∧ t.inputs = s.inputs ∧
    (1 ≤ (rowOf pos).toNat ∧ (rowOf pos).toNat ≤ 8 →
      rowBits t.matrix (rowOf pos) = rowBits s.matrix (rowOf pos) ||| maskOf s.keymap pos) ∧
    (¬(1 ≤ (rowOf pos).toNat ∧ (rowOf pos).toNat ≤ 8) → t.matrix = s.matrix) ∧
    (∀ r, r ≠ rowOf pos → rowBits t.matrix r = rowBits s.matrix r) ∧
    exec (.assertPos pos) t = .next t

/-- CLEAR (R171): the mask's bits of the position's row become 0, the others keep their values, rows outside 1 to 8 do
nothing, repeating it changes nothing. -/
def Obligations.ClearClearsMaskInRow : Prop :=
  ∀ (s : State) (pos : Position), ∃ t, exec (.clearPos pos) s = .next t ∧
    t.slots = s.slots ∧ t.mod = s.mod ∧ t.keymap = s.keymap ∧ t.inputs = s.inputs ∧
    (1 ≤ (rowOf pos).toNat ∧ (rowOf pos).toNat ≤ 8 →
      rowBits t.matrix (rowOf pos) = rowBits s.matrix (rowOf pos) &&& ~~~(maskOf s.keymap pos)) ∧
    (¬(1 ≤ (rowOf pos).toNat ∧ (rowOf pos).toNat ≤ 8) → t.matrix = s.matrix) ∧
    (∀ r, r ≠ rowOf pos → rowBits t.matrix r = rowBits s.matrix r) ∧
    exec (.clearPos pos) t = .next t

/-- RD (R172): rows 1 to 8 return the register, the others 0x00 (D18); nothing but RD_DATA changes. -/
def Obligations.ReadReturnsRow : Prop :=
  ∀ (s : State) (row : RowNum),
    (∀ _ : 1 ≤ row.toNat ∧ row.toNat ≤ 8,
      exec (.rd row) s = .next (s.setOut { Output.silent with rdData := some s.matrix[row.toNat - 1] })) ∧
    (¬(1 ≤ row.toNat ∧ row.toNat ≤ 8) →
      exec (.rd row) s = .next (s.setOut { Output.silent with rdData := some 0x00 }))

/-- CLEARALL (R173): every row 0x00, the slots and MOD stay. -/
def Obligations.ClearAllZeroesEveryRow : Prop :=
  ∀ s : State, ∃ t, exec .clearAll s = .next t ∧ (∀ r, rowBits t.matrix r = 0) ∧
    t.slots = s.slots ∧ t.mod = s.mod ∧ t.keymap = s.keymap ∧ t.inputs = s.inputs

/-- REBUILD (R174, D10): a bit of a row is 1 exactly when a held key's position has it or the SHIFT position has it and
`shift_eff` is 1; the slots and MOD stay. -/
def Obligations.RebuildSetsExactlyTheHeldBits : Prop :=
  ∀ s : State, ∃ t, exec .rebuild s = .next t ∧
    (∀ (r : RowNum) (c : Nat), 1 ≤ r.toNat → r.toNat ≤ 8 →
      ((rowBits t.matrix r).getLsbD c = true ↔
        (∃ i : Fin 6, (slot s.slots i).v = true ∧ KeyPlace s.keymap (slot s.slots i).pos r c) ∨
        (shiftEff s.slots s.mod = true ∧ ShiftPlace s.keymap r c))) ∧
    t.slots = s.slots ∧ t.mod = s.mod ∧ t.keymap = s.keymap ∧ t.inputs = s.inputs

/-- The SPACE case (R176): a sentinel position asserts and clears exactly SPACE_MASK in its row, one bit in a well-formed
configuration; with ROM_ASCII[0] = 0x7F the make of the SPACE key, carrying no override, sets exactly row 7's SPACE bit, and
its break leaves the rows as they were. -/
def Obligations.SpaceAssertsOnlyItsMask : Prop :=
  (∀ (s : State) (pos : Position), colF pos = 0xF → pos ≠ 0xFF → 1 ≤ (rowOf pos).toNat → (rowOf pos).toNat ≤ 8 →
    (∃ t, exec (.assertPos pos) s = .next t ∧
      rowBits t.matrix (rowOf pos) = rowBits s.matrix (rowOf pos) ||| s.keymap.spaceMask ∧
      ∀ r, r ≠ rowOf pos → rowBits t.matrix r = rowBits s.matrix r) ∧
    (∃ t, exec (.clearPos pos) s = .next t ∧
      rowBits t.matrix (rowOf pos) = rowBits s.matrix (rowOf pos) &&& ~~~s.keymap.spaceMask ∧
      ∀ r, r ≠ rowOf pos → rowBits t.matrix r = rowBits s.matrix r) ∧
    (s.keymap.wf = true → ∃ c < 8, ∀ j, s.keymap.spaceMask.getLsbD j = decide (j = c))) ∧
  (∀ (s : State) (code brk : Code), s.Mirrors → s.keymap.romAscii[0] = 0x7F → lookupOvr s.keymap 0x20 = 0 →
    KeyMake s.keymap code → lookupSpecial s.keymap (spKey code) = none →
    sc2ascii s.keymap (s.query code) = some 0x20 → ¬Held s.slots (keyId code) → ¬Full s.slots →
    keyId brk = keyId code → rel brk = true →
    ∃ t u, exec (.event code) s = .next t ∧ t.out.evstat = some .pressed ∧
      rowBits t.matrix 7 = rowBits s.matrix 7 ||| s.keymap.spaceMask ∧
      (∀ r, r ≠ 7 → rowBits t.matrix r = rowBits s.matrix r) ∧
      exec (.event brk) t = .next u ∧ u.out.evstat = some .released ∧ u.matrix = s.matrix)

/-! ### The event operations -/

/-- EVENT (R140): the hardware's dispatch, the modifier table first, then the release flag, then the special table. -/
def Obligations.EventDispatch : Prop :=
  ∀ (s : State) (code : Code),
    (∀ m, lookupMod s.keymap (keyId code) = some (shiftLine m) →
      exec (.event code) s = if rel code then exec (.shiftBr m) s else exec (.shiftMk m) s) ∧
    (∀ m, lookupMod s.keymap (keyId code) = some (ctrlLine m) →
      exec (.event code) s = if rel code then exec (.ctrlBr m) s else exec (.ctrlMk m) s) ∧
    (lookupMod s.keymap (keyId code) = some .alt →
      exec (.event code) s = if rel code then exec .altBr s else exec .altMk s) ∧
    (lookupMod s.keymap (keyId code) = none → rel code = true →
      exec (.event code) s = exec (.keyBr (keyId code)) s) ∧
    (lookupMod s.keymap (keyId code) = none → rel code = false →
      ((lookupSpecial s.keymap (spKey code)).isSome = true → exec (.event code) s = exec (.specialMk code) s) ∧
      (lookupSpecial s.keymap (spKey code) = none → exec (.event code) s = exec (.printMk code) s)) ∧
    exec (.event code) s = exec (select s.keymap code) s

/-- SHIFT.MK (R141): its MOD bit becomes 1, the others stay, no slot changes, the rows mirror the new state; from a state
that mirrored, only bits of the SHIFT position change. -/
def Obligations.ShiftMakeSetsItsBit : Prop :=
  ∀ (s : State) (m : ShiftKey), ∃ t, exec (.shiftMk m) s = .next t ∧
    (∀ j : Nat, t.mod.getLsbD j = if j = (if m = .left then 0 else 1) then true else s.mod.getLsbD j) ∧
    t.slots = s.slots ∧ t.keymap = s.keymap ∧ t.inputs = s.inputs ∧
    t.out = { Output.silent with evstat := some .modifier } ∧ t.Mirrors ∧
    (s.Mirrors → ∀ r c, ¬ShiftPlace s.keymap r c → (rowBits t.matrix r).getLsbD c = (rowBits s.matrix r).getLsbD c)

/-- SHIFT.BR (R142): its MOD bit becomes 0, the others stay, no slot changes; the SHIFT bit becomes the new `shift_eff`, so it
stays 1 while the other shift key is down (no held key forcing 0) or a held key forces 1; no other bit changes. -/
def Obligations.ShiftBreakClearsItsBit : Prop :=
  ∀ (s : State) (m : ShiftKey), ∃ t, exec (.shiftBr m) s = .next t ∧
    (∀ j : Nat, t.mod.getLsbD j = if j = (if m = .left then 0 else 1) then false else s.mod.getLsbD j) ∧
    t.slots = s.slots ∧ t.keymap = s.keymap ∧ t.inputs = s.inputs ∧
    t.out = { Output.silent with evstat := some .modifier } ∧ t.Mirrors ∧
    (∀ r c, 1 ≤ r.toNat → r.toNat ≤ 8 → ShiftPlace s.keymap r c →
      (s.mod.getLsbD (if m = .left then 1 else 0) = true ∧ force0 s.slots = false ∨ force1 s.slots = true) →
      (rowBits t.matrix r).getLsbD c = true) ∧
    (s.Mirrors → ∀ r c, ¬ShiftPlace s.keymap r c → (rowBits t.matrix r).getLsbD c = (rowBits s.matrix r).getLsbD c)

/-- CTRL.MK and CTRL.BR (R143, R144): the MOD bit becomes 1 or 0, the others stay; rows and slots stay. -/
def Obligations.ControlKeysWriteOnlyMod : Prop :=
  ∀ (s : State) (m : CtrlKey),
    (∃ md, exec (.ctrlMk m) s = .next ((s.setMod md).report .modifier none) ∧
      ∀ j : Nat, md.getLsbD j = if j = (if m = .left then 2 else 3) then true else s.mod.getLsbD j) ∧
    (∃ md, exec (.ctrlBr m) s = .next ((s.setMod md).report .modifier none) ∧
      ∀ j : Nat, md.getLsbD j = if j = (if m = .left then 2 else 3) then false else s.mod.getLsbD j)

/-- ALT.MK and ALT.BR (R145, D7): consumed with status MODIFIER, no state is written. -/
def Obligations.AltKeysAreConsumed : Prop :=
  ∀ s : State, exec .altMk s = .next (s.report .modifier none) ∧ exec .altBr s = .next (s.report .modifier none)

/-- SPECIAL.MK (R146): 0xFF is UNMAPPED, then DUPLICATE, then FULL, all changing nothing (D26); else the key takes the lowest
free slot with override NONE, the rows mirror the new state, and from a state that mirrored exactly the position's mask is
ORed into its row (D27 for an invalid row: the slot is taken and no bit set). -/
def Obligations.SpecialMakeOutcomes : Prop :=
  ∀ (s : State) (code : Code) (pos : Position), lookupSpecial s.keymap (spKey code) = some pos →
    (pos = 0xFF → exec (.specialMk code) s = .next (s.report .unmapped none)) ∧
    (pos ≠ 0xFF → Held s.slots (keyId code) → exec (.specialMk code) s = .next (s.report .duplicate none)) ∧
    (pos ≠ 0xFF → ¬Held s.slots (keyId code) → Full s.slots →
      exec (.specialMk code) s = .next (s.report .full none)) ∧
    (∀ i, pos ≠ 0xFF → ¬Held s.slots (keyId code) → LowestFree s.slots i →
      ∃ t, exec (.specialMk code) s = .next t ∧
        t.slots = setSlot s.slots i ⟨true, 0b00, pos, keyId code⟩ ∧
        t.mod = s.mod ∧ t.keymap = s.keymap ∧ t.inputs = s.inputs ∧
        t.out = { Output.silent with evstat := some (if rowOk pos then .pressed else .pressedInvRow) } ∧ t.Mirrors ∧
        (s.Mirrors → ∀ r, 1 ≤ r.toNat → r.toNat ≤ 8 →
          rowBits t.matrix r = if rowOf pos = r then rowBits s.matrix r ||| maskOf s.keymap pos else rowBits s.matrix r))

/-- PRINT.MK (R147): the two UNMAPPED drops, then DUPLICATE, then FULL (D26), all changing nothing; else the key takes the
lowest free slot with the character's override, the rows mirror the new state, and from a state that mirrored every bit
outside the SHIFT position is the old bit or the new key's. The collaborator is asked with the modifier state before the
event. -/
def Obligations.PrintMakeOutcomes : Prop :=
  ∀ (s : State) (code : Code),
    (sc2ascii s.keymap (s.query code) = none →
      exec (.printMk code) s = .next (s.report .unmapped (some (s.query code)))) ∧
    ∀ a, sc2ascii s.keymap (s.query code) = some a →
      (lookupAscii s.keymap a = none →
        exec (.printMk code) s = .next (s.report .unmapped (some (s.query code)))) ∧
      ∀ pos, lookupAscii s.keymap a = some pos →
        (Held s.slots (keyId code) →
          exec (.printMk code) s = .next (s.report .duplicate (some (s.query code)))) ∧
        (¬Held s.slots (keyId code) → Full s.slots →
          exec (.printMk code) s = .next (s.report .full (some (s.query code)))) ∧
        (∀ i, ¬Held s.slots (keyId code) → LowestFree s.slots i →
          ∃ t, exec (.printMk code) s = .next t ∧
            t.slots = setSlot s.slots i ⟨true, lookupOvr s.keymap a, pos, keyId code⟩ ∧
            t.mod = s.mod ∧ t.keymap = s.keymap ∧ t.inputs = s.inputs ∧
            t.out = { Output.silent with
              evstat := some (if rowOk pos then .pressed else .pressedInvRow), sc := some (s.query code) } ∧
            t.Mirrors ∧
            (s.Mirrors → ∀ r c, 1 ≤ r.toNat → r.toNat ≤ 8 → ¬ShiftPlace s.keymap r c →
              ((rowBits t.matrix r).getLsbD c = true ↔
                (rowBits s.matrix r).getLsbD c = true ∨ KeyPlace s.keymap pos r c)))

/-- KEY.BR (R148, D9): NOTHELD changes nothing; a held key's slot is freed and keeps its other bits, the rows mirror the new
state: from a state that mirrored, bits outside the key's position and the SHIFT position stay, and the key's bits stay set
while another held key decodes to the same row and mask. -/
def Obligations.KeyBreakOutcomes : Prop :=
  ∀ (s : State) (id : KeyId),
    (¬Held s.slots id → exec (.keyBr id) s = .next (s.report .notHeld none)) ∧
    (∀ i, Distinct s.slots → (slot s.slots i).v = true → (slot s.slots i).id = id →
      ∃ t, exec (.keyBr id) s = .next t ∧
        t.slots = setSlot s.slots i ⟨false, (slot s.slots i).ovr, (slot s.slots i).pos, (slot s.slots i).id⟩ ∧
        t.mod = s.mod ∧ t.keymap = s.keymap ∧ t.inputs = s.inputs ∧
        t.out = { Output.silent with evstat := some .released } ∧ t.Mirrors ∧
        (s.Mirrors → ∀ r c, ¬KeyPlace s.keymap (slot s.slots i).pos r c → ¬ShiftPlace s.keymap r c →
          (rowBits t.matrix r).getLsbD c = (rowBits s.matrix r).getLsbD c) ∧
        (∀ j, j ≠ i → (slot s.slots j).v = true → rowOf (slot s.slots j).pos = rowOf (slot s.slots i).pos →
          maskOf s.keymap (slot s.slots j).pos = maskOf s.keymap (slot s.slots i).pos →
          ∀ r c, 1 ≤ r.toNat → r.toNat ≤ 8 → KeyPlace s.keymap (slot s.slots i).pos r c →
            (rowBits t.matrix r).getLsbD c = true))

/-- The unmapped drop (R149): when the make resolves to nothing, rows, slots and MOD are exactly as before and EVSTAT is
UNMAPPED; the four causes of an empty resolution. -/
def Obligations.UnmappedMakeIsDropped : Prop :=
  ∀ (s : State) (code : Code),
    (KeyMake s.keymap code → s.resolution code = none →
      ∃ t, exec (.event code) s = .next t ∧ s.Unchanged t ∧ t.out.evstat = some .unmapped) ∧
    (s.resolution code = none ↔
      lookupSpecial s.keymap (spKey code) = some 0xFF ∨
      (lookupSpecial s.keymap (spKey code) = none ∧
        (sc2ascii s.keymap (s.query code) = none ∨
         ∃ a, sc2ascii s.keymap (s.query code) = some a ∧
          (a.toNat < 0x20 ∨ 0x7E < a.toNat ∨
           ∃ _ : 0x20 ≤ a.toNat ∧ a.toNat ≤ 0x7E, s.keymap.romAscii[a.toNat - 0x20] = 0xFF))))

/-- The duplicate drop (R150): a make of a key in the set changes nothing; EVSTAT is DUPLICATE when the make resolves (UNMAPPED
is decided first, D26). -/
def Obligations.DuplicateMakeIsDropped : Prop :=
  ∀ (s : State) (code : Code), KeyMake s.keymap code → Held s.slots (keyId code) →
    ∃ t, exec (.event code) s = .next t ∧ s.Unchanged t ∧
      ((s.resolution code).isSome = true → t.out.evstat = some .duplicate)

/-- The capacity drop (R151): the make of a seventh, different, mapped key changes nothing and EVSTAT is FULL, and its break is
NOTHELD and changes nothing. It is not remembered: the release of one of the six does not bring it in, after the release no
event but a new make of it does, its new make does, and its break is NOTHELD still. -/
def Obligations.SeventhKeyIsDropped : Prop :=
  ∀ (s : State) (code : Code), KeyMake s.keymap code → Full s.slots → ¬Held s.slots (keyId code) →
    (s.resolution code).isSome = true →
    ∃ t, exec (.event code) s = .next t ∧ s.Unchanged t ∧ t.out.evstat = some .full ∧
      (∀ brk, keyId brk = keyId code → rel brk = true →
        ∃ u, exec (.event brk) t = .next u ∧ s.Unchanged u ∧ u.out.evstat = some .notHeld) ∧
      (∀ i, Distinct s.slots →
        ∃ u, exec (.keyBr (slot s.slots i).id) t = .next u ∧ u.out.evstat = some .released ∧
          ¬Held u.slots (keyId code) ∧
          (∀ c v, exec (.event c) u = .next v → Held v.slots (keyId code) →
            KeyMake s.keymap c ∧ keyId c = keyId code) ∧
          (∃ v, exec (.event code) u = .next v ∧ Held v.slots (keyId code)) ∧
          (∀ brk, keyId brk = keyId code → rel brk = true →
            ∃ v, exec (.event brk) u = .next v ∧ u.Unchanged v ∧ v.out.evstat = some .notHeld))

/-- Press and release of one key (R148, R29): from a state that mirrors, a make of a key that is not held, then its break,
whatever their context flags, restore every row, MOD and the held keys. -/
def Obligations.PressThenReleaseRestores : Prop :=
  ∀ (s : State) (mk brk : Code), s.Mirrors → KeyMake s.keymap mk → ¬Held s.slots (keyId mk) →
    keyId brk = keyId mk → rel brk = true →
    ∃ t u, exec (.event mk) s = .next t ∧ exec (.event brk) t = .next u ∧
      u.matrix = s.matrix ∧ u.mod = s.mod ∧ heldKeys u.slots = heldKeys s.slots

/-- A held key keeps its position and override (R28, R208) and leaves the set only by its own break or reset (R23 (d)). -/
def Obligations.HeldKeyLeavesOnlyByItsBreak : Prop :=
  ∀ (s t : State) (a : Activity) (rest : List Activity) (i : Fin 6), s.inputs = a :: rest → (∀ d, a ≠ .reset d) →
    step s = .next t → (slot s.slots i).v = true →
    slot t.slots i = slot s.slots i ∨
      ∃ code, a = .event code ∧ rel code = true ∧ keyId code = (slot s.slots i).id ∧
        slot t.slots i = ⟨false, (slot s.slots i).ovr, (slot s.slots i).pos, (slot s.slots i).id⟩

/-- The context flags of a modifier's code and of a break are ignored (R80, R112, R148). -/
def Obligations.ContextFlagsIgnored : Prop :=
  ∀ (s : State) (c d : Code), keyId c = keyId d → rel c = rel d →
    ((lookupMod s.keymap (keyId c)).isSome = true ∨ rel c = true) → exec (.event c) s = exec (.event d) s

/-- MOD is written only by the modifier operations (R24): a bit that an event changes is the bit of the modifier key whose
code it is, and it becomes the complement of the release flag. -/
def Obligations.ModBitChangesOnlyByItsKey : Prop :=
  ∀ (s t : State) (code : Code) (j : Fin 4), exec (.event code) s = .next t →
    t.mod.getLsbD j ≠ s.mod.getLsbD j →
    ∃ l, lookupMod s.keymap (keyId code) = some l ∧ modBit l = some j ∧ t.mod.getLsbD j = !rel code

/-- The block asks SC2ASCII only for a make that is neither a modifier nor special, with the physical modifier state
(R114, D15). -/
def Obligations.CollaboratorAskedOnlyForPrintables : Prop :=
  ∀ (s : State) (code : Code), ∃ t, exec (.event code) s = .next t ∧
    (KeyMake s.keymap code ∧ lookupSpecial s.keymap (spKey code) = none →
      t.out.sc = some ⟨spKey code, s.mod.getLsbD 0 || s.mod.getLsbD 1, s.mod.getLsbD 2 || s.mod.getLsbD 3⟩) ∧
    (¬(KeyMake s.keymap code ∧ lookupSpecial s.keymap (spKey code) = none) → t.out.sc = none)

/-! ### Frames -/

/-- What each family of operations leaves unchanged. Lookups, CONTAINS, COUNT, RD and ALT change nothing but outputs. ADD and
the makes change no slot but the lowest free one, REMOVE and KEY.BR none but the first valid one with the identity, and none
where that search or the make's lookups find nothing; ADD, REMOVE and PKS_CLEAR change no row and no MOD bit. The matrix
primitives change no slot and no MOD bit, ASSERT and CLEAR no row but the position's. Control keys change no row and no slot,
shift keys no slot, key operations no MOD bit; an EVENT so of whichever it is. RST, which writes every slot, row and MOD bit,
produces no EVSTAT. No operation changes the configuration.

That ADD takes the lowest free slot is the spec's decision D8. The model's own choices in it: which of two slots with one
identity REMOVE frees (log 9), a SPECIAL.MK whose lookup finds nothing (log 11), the absent EVSTAT (log 5), and that every
operation, RST included, leaves the activity to come (logs 4 and 16). -/
def Obligations.OperationFrames : Prop :=
  ∀ (i : Instr) (s t : State), exec i s = .next t → t.keymap = s.keymap ∧ t.inputs = s.inputs ∧
    match i with
    | .lookupAscii _ | .lookupSpecial _ | .lookupMod _ | .lookupOvr _ | .sc2ascii _ _ _ | .resolve _ => s.Unchanged t
    | .contains _ | .count | .rd _ | .altMk | .altBr => s.Unchanged t
    | .add id _ _ => t.matrix = s.matrix ∧ t.mod = s.mod ∧
        (∀ j : Fin 6, findFree s.slots ≠ some j → slot t.slots j = slot s.slots j) ∧
        (Held s.slots id ∨ findFree s.slots = none → s.Unchanged t)
    | .remove id => t.matrix = s.matrix ∧ t.mod = s.mod ∧
        (∀ j : Fin 6, findHeld s.slots id ≠ some j → slot t.slots j = slot s.slots j) ∧
        (findHeld s.slots id = none → s.Unchanged t)
    | .pksClear => t.matrix = s.matrix ∧ t.mod = s.mod
    | .assertPos pos | .clearPos pos => t.slots = s.slots ∧ t.mod = s.mod ∧
        (∀ r, r ≠ rowOf pos → rowBits t.matrix r = rowBits s.matrix r) ∧ (rowOk pos = false → s.Unchanged t)
    | .clearAll | .rebuild => t.slots = s.slots ∧ t.mod = s.mod
    | .ctrlMk _ | .ctrlBr _ => t.matrix = s.matrix ∧ t.slots = s.slots ∧
        ∀ j < 2, t.mod.getLsbD j = s.mod.getLsbD j
    | .shiftMk _ | .shiftBr _ => t.slots = s.slots ∧ ∀ j, 2 ≤ j → t.mod.getLsbD j = s.mod.getLsbD j
    | .specialMk code => t.mod = s.mod ∧
        (∀ j : Fin 6, findFree s.slots ≠ some j → slot t.slots j = slot s.slots j) ∧
        (lookupSpecial s.keymap (spKey code) = none ∨ lookupSpecial s.keymap (spKey code) = some 0xFF ∨
          Held s.slots (keyId code) ∨ findFree s.slots = none → s.Unchanged t)
    | .printMk code => t.mod = s.mod ∧
        (∀ j : Fin 6, findFree s.slots ≠ some j → slot t.slots j = slot s.slots j) ∧
        (sc2ascii s.keymap (s.query code) = none ∨
          (∃ a, sc2ascii s.keymap (s.query code) = some a ∧ lookupAscii s.keymap a = none) ∨
          Held s.slots (keyId code) ∨ findFree s.slots = none → s.Unchanged t)
    | .keyBr id => t.mod = s.mod ∧
        (∀ j : Fin 6, findHeld s.slots id ≠ some j → slot t.slots j = slot s.slots j) ∧
        (findHeld s.slots id = none → s.Unchanged t)
    | .event code => (lookupMod s.keymap (keyId code) = none → t.mod = s.mod) ∧
        ((lookupMod s.keymap (keyId code)).isSome = true → t.slots = s.slots) ∧
        (∀ j : Fin 6, findFree s.slots ≠ some j → findHeld s.slots (keyId code) ≠ some j →
          slot t.slots j = slot s.slots j)
    | .rst => t.out.evstat = none

/-! ### Reset -/

/-- RST (R200, R30, D19): from any state, every slot empty and zero, MOD zero, every row 0x00, no EVSTAT; twice is once; the
configuration and the activity to come are not its business (logs 4, 16), and the silent outputs are the model's (log 5). -/
def Obligations.ResetState : Prop :=
  ∀ s : State, ∃ t, exec .rst s = .next t ∧ (∀ i : Fin 6, slot t.slots i = ⟨false, 0, 0, 0⟩) ∧ t.mod = 0 ∧
    (∀ r, rowBits t.matrix r = 0) ∧ t.out = Output.silent ∧ t.keymap = s.keymap ∧ t.inputs = s.inputs ∧
    exec .rst t = .next t

/-- Keys down at reset (R204): after RST the break of any non-modifier key is NOTHELD and changes nothing. -/
def Obligations.BreakAfterResetIsNotHeld : Prop :=
  ∀ (s t : State) (code : Code), exec .rst s = .next t → lookupMod s.keymap (keyId code) = none → rel code = true →
    ∃ u, exec (.event code) t = .next u ∧ t.Unchanged u ∧ u.out.evstat = some .notHeld

/-! ### Invariants -/

/-- The state right after reset has the invariant. -/
def Obligations.ResetHasInvariant : Prop := State.reset.Inv

/-- Every step keeps the invariant: the rows mirror the held keys and the SHIFT bit (R29), no identity is held twice (R23 (a)),
no modifier key is held (R23 (e)), held positions come from the tables, held overrides are legal. -/
def Obligations.StepKeepsInvariant : Prop := ∀ s t : State, s.Inv → step s = .next t → t.Inv

/-- With every key and shift key up all rows are zero (R29). -/
def Obligations.AllKeysUpMeansRowsZero : Prop :=
  ∀ s : State, s.Inv → s.AllUp → ∀ r, rowBits s.matrix r = 0

/-- The SHIFT bit under overrides (R152, R25, D14): in a well-formed configuration, with the invariant, the SHIFT position shows
1 while some held key forces 1, else 0 while some held key forces 0, else the physical shift state. -/
def Obligations.OverrideForcesShiftBit : Prop :=
  ∀ s : State, s.Inv → s.keymap.wfPositions = true → s.keymap.wfShiftPos = true → s.keymap.wfSpaceMask = true →
    ((∃ i : Fin 6, (slot s.slots i).v = true ∧ (slot s.slots i).ovr = 0b11) →
      rowBits s.matrix (rowOf s.keymap.shiftPos) &&& maskOf s.keymap s.keymap.shiftPos =
        maskOf s.keymap s.keymap.shiftPos) ∧
    ((∀ i : Fin 6, (slot s.slots i).v = true → (slot s.slots i).ovr ≠ 0b11) →
      ((∃ i : Fin 6, (slot s.slots i).v = true ∧ (slot s.slots i).ovr = 0b10) →
        rowBits s.matrix (rowOf s.keymap.shiftPos) &&& maskOf s.keymap s.keymap.shiftPos = 0) ∧
      ((∀ i : Fin 6, (slot s.slots i).v = true → (slot s.slots i).ovr ≠ 0b10) →
        rowBits s.matrix (rowOf s.keymap.shiftPos) &&& maskOf s.keymap s.keymap.shiftPos =
          if s.mod.getLsbD 0 || s.mod.getLsbD 1 then maskOf s.keymap s.keymap.shiftPos else 0))

/-! ### Equivalence and noninterference -/

/-- The incremental form equals the rebuild (R175): in a configuration with one-bit masks and an unshared SHIFT position, with
the invariant, every event leaves the matrix that single-port ASSERT and CLEAR updates from the changed slot and the changed
`shift_eff` give. -/
def Obligations.IncrementalEqualsRebuild : Prop :=
  ∀ (s t : State) (code : Code), s.Inv → s.keymap.wfPositions = true → s.keymap.wfShiftPos = true →
    s.keymap.wfSpaceMask = true → exec (.event code) s = .next t →
    t.matrix = incrementalMatrix s.keymap s.slots t.slots s.mod t.mod s.matrix

/-- Slot numbers and the bits of free slots cannot be observed (R23 (c)): two states that hold the same keys in any slots, and
agree otherwise, step to two such states, with the same rows and outputs. -/
def Obligations.SlotPlacementUnobservable : Prop :=
  ∀ s t : State, SameSet s t → Distinct s.slots → Distinct t.slots →
    ∃ s' t', step s = .next s' ∧ step t = .next t' ∧ SameSet s' t'

/-! ### What enters the Pressed-Key Set -/

/-- A key enters the set only by its own make (R23 (d), R131, R149 to R151): if a step leaves held an identity that was not, the
step is the event of a make of it, the make resolved, and the lowest free slot (D8) now holds the identity with the position
and override of the resolution, the other slots as before. The activity list is the model's (log 4). -/
def Obligations.KeyEntersOnlyByItsMake : Prop :=
  ∀ (s t : State) (a : Activity) (rest : List Activity) (id : KeyId), s.inputs = a :: rest → step s = .next t →
    ¬Held s.slots id → Held t.slots id →
    ∃ code i pos ovr, a = .event code ∧ KeyMake s.keymap code ∧ keyId code = id ∧ LowestFree s.slots i ∧
      s.resolution code = some (pos, ovr) ∧ slot t.slots i = ⟨true, ovr, pos, id⟩ ∧
      ∀ j, j ≠ i → slot t.slots j = slot s.slots j
end

