-- ==== Sys2Proof/Laws/State.lean ====
section
/-! SUPPORT. One lemma per field per update of the state, all by rfl. -/

namespace Sys2Proof.Machine.State

variable (s : State)

@[simp] theorem setMatrix_matrix (x : Matrix) : (s.setMatrix x).matrix = x := rfl
@[simp] theorem setMatrix_slots (x : Matrix) : (s.setMatrix x).slots = s.slots := rfl
@[simp] theorem setMatrix_mod (x : Matrix) : (s.setMatrix x).mod = s.mod := rfl
@[simp] theorem setMatrix_keymap (x : Matrix) : (s.setMatrix x).keymap = s.keymap := rfl
@[simp] theorem setMatrix_inputs (x : Matrix) : (s.setMatrix x).inputs = s.inputs := rfl
@[simp] theorem setMatrix_out (x : Matrix) : (s.setMatrix x).out = s.out := rfl

@[simp] theorem setSlots_matrix (x : Slots) : (s.setSlots x).matrix = s.matrix := rfl
@[simp] theorem setSlots_slots (x : Slots) : (s.setSlots x).slots = x := rfl
@[simp] theorem setSlots_mod (x : Slots) : (s.setSlots x).mod = s.mod := rfl
@[simp] theorem setSlots_keymap (x : Slots) : (s.setSlots x).keymap = s.keymap := rfl
@[simp] theorem setSlots_inputs (x : Slots) : (s.setSlots x).inputs = s.inputs := rfl
@[simp] theorem setSlots_out (x : Slots) : (s.setSlots x).out = s.out := rfl

@[simp] theorem setMod_matrix (x : BitVec 4) : (s.setMod x).matrix = s.matrix := rfl
@[simp] theorem setMod_slots (x : BitVec 4) : (s.setMod x).slots = s.slots := rfl
@[simp] theorem setMod_mod (x : BitVec 4) : (s.setMod x).mod = x := rfl
@[simp] theorem setMod_keymap (x : BitVec 4) : (s.setMod x).keymap = s.keymap := rfl
@[simp] theorem setMod_inputs (x : BitVec 4) : (s.setMod x).inputs = s.inputs := rfl
@[simp] theorem setMod_out (x : BitVec 4) : (s.setMod x).out = s.out := rfl

@[simp] theorem setInputs_matrix (x : List Activity) : (s.setInputs x).matrix = s.matrix := rfl
@[simp] theorem setInputs_slots (x : List Activity) : (s.setInputs x).slots = s.slots := rfl
@[simp] theorem setInputs_mod (x : List Activity) : (s.setInputs x).mod = s.mod := rfl
@[simp] theorem setInputs_keymap (x : List Activity) : (s.setInputs x).keymap = s.keymap := rfl
@[simp] theorem setInputs_inputs (x : List Activity) : (s.setInputs x).inputs = x := rfl
@[simp] theorem setInputs_out (x : List Activity) : (s.setInputs x).out = s.out := rfl

@[simp] theorem setOut_matrix (x : Output) : (s.setOut x).matrix = s.matrix := rfl
@[simp] theorem setOut_slots (x : Output) : (s.setOut x).slots = s.slots := rfl
@[simp] theorem setOut_mod (x : Output) : (s.setOut x).mod = s.mod := rfl
@[simp] theorem setOut_keymap (x : Output) : (s.setOut x).keymap = s.keymap := rfl
@[simp] theorem setOut_inputs (x : Output) : (s.setOut x).inputs = s.inputs := rfl
@[simp] theorem setOut_out (x : Output) : (s.setOut x).out = x := rfl

@[simp] theorem rebuild_matrix : s.rebuild.matrix = rebuiltMatrix s.keymap s.slots s.mod := rfl
@[simp] theorem rebuild_slots : s.rebuild.slots = s.slots := rfl
@[simp] theorem rebuild_mod : s.rebuild.mod = s.mod := rfl
@[simp] theorem rebuild_keymap : s.rebuild.keymap = s.keymap := rfl
@[simp] theorem rebuild_inputs : s.rebuild.inputs = s.inputs := rfl
@[simp] theorem rebuild_out : s.rebuild.out = s.out := rfl

@[simp] theorem report_matrix (st : EvStat) (q : Option ScQuery) : (s.report st q).matrix = s.matrix := rfl
@[simp] theorem report_slots (st : EvStat) (q : Option ScQuery) : (s.report st q).slots = s.slots := rfl
@[simp] theorem report_mod (st : EvStat) (q : Option ScQuery) : (s.report st q).mod = s.mod := rfl
@[simp] theorem report_keymap (st : EvStat) (q : Option ScQuery) : (s.report st q).keymap = s.keymap := rfl
@[simp] theorem report_inputs (st : EvStat) (q : Option ScQuery) : (s.report st q).inputs = s.inputs := rfl
@[simp] theorem report_out (st : EvStat) (q : Option ScQuery) : (s.report st q).out = { Output.silent with evstat := some st, sc := q } := rfl

@[simp] theorem answer_matrix (a : Answer) : (s.answer a).matrix = s.matrix := rfl
@[simp] theorem answer_slots (a : Answer) : (s.answer a).slots = s.slots := rfl
@[simp] theorem answer_mod (a : Answer) : (s.answer a).mod = s.mod := rfl
@[simp] theorem answer_keymap (a : Answer) : (s.answer a).keymap = s.keymap := rfl
@[simp] theorem answer_inputs (a : Answer) : (s.answer a).inputs = s.inputs := rfl
@[simp] theorem answer_out (a : Answer) : (s.answer a).out = { Output.silent with answer := a } := rfl

@[simp] theorem setOut_setOut (x y : Output) : (s.setOut x).setOut y = s.setOut y := rfl

/-- Two states are equal when their fields are. -/
theorem ext_fields {s t : State} (h1 : s.matrix = t.matrix) (h2 : s.slots = t.slots) (h3 : s.mod = t.mod)
    (h4 : s.keymap = t.keymap) (h5 : s.inputs = t.inputs) (h6 : s.out = t.out) : s = t := by
  cases s; cases t; simp_all

end Sys2Proof.Machine.State
end

