-- ==== Sys2Proof/Laws/Ops.lean ====
section
/-! SUPPORT. What each shared operation can do, said once: the lemmas proofs cite instead of unfolding the operations. -/

namespace Sys2Proof.Machine

variable {sl : Slots} {K : Keymap}

theorem mem_slotIdx (i : Fin 6) : i ∈ slotIdx := by revert i; decide

/-! ### The Pressed-Key Set -/

theorem pksContains_iff (id : KeyId) :
    pksContains sl id = true ↔ ∃ i : Fin 6, (slot sl i).v = true ∧ (slot sl i).id = id := by
  simp only [pksContains, List.any_eq_true, Bool.and_eq_true, beq_iff_eq]
  exact ⟨fun ⟨i, _, h⟩ => ⟨i, h⟩, fun ⟨i, h⟩ => ⟨i, mem_slotIdx i, h⟩⟩

theorem pksContains_false_iff (id : KeyId) :
    pksContains sl id = false ↔ ∀ i : Fin 6, (slot sl i).v = true → (slot sl i).id ≠ id := by
  rw [← Bool.not_eq_true, pksContains_iff]
  exact ⟨fun h i hv e => h ⟨i, hv, e⟩, fun h ⟨i, hv, e⟩ => h i hv e⟩

theorem findHeld_some {id : KeyId} {i : Fin 6} (h : findHeld sl id = some i) : (slot sl i).v = true ∧ (slot sl i).id = id := by
  simpa using List.find?_some h

theorem findHeld_none {id : KeyId} : findHeld sl id = none ↔ ∀ i : Fin 6, (slot sl i).v = true → (slot sl i).id ≠ id := by
  simp only [findHeld, List.find?_eq_none, Bool.and_eq_true, beq_iff_eq, not_and]
  exact ⟨fun h i => h i (mem_slotIdx i), fun h i _ => h i⟩

theorem findFree_some {i : Fin 6} (h : findFree sl = some i) : (slot sl i).v = false := by
  simpa using List.find?_some h

theorem findFree_none : findFree sl = none ↔ ∀ i : Fin 6, (slot sl i).v = true := by
  simp only [findFree, List.find?_eq_none, Bool.not_eq_true', Bool.not_eq_false]
  exact ⟨fun h i => h i (mem_slotIdx i), fun h i _ => h i⟩

/-- A search of an ascending list finds the lowest index that answers. -/
theorem find_ascending {f : Fin 6 → Bool} {i : Fin 6} : ∀ {l : List (Fin 6)}, l.Pairwise (· < ·) →
    (l.find? f = some i ↔ i ∈ l ∧ f i = true ∧ ∀ j ∈ l, j < i → f j = false)
  | [], _ => by simp
  | a :: l, h => by
    obtain ⟨ha, hl⟩ := List.pairwise_cons.1 h
    rw [List.find?_cons]
    cases hf : f a with
    | true =>
      simp only [Option.some.injEq]
      refine ⟨fun e => ⟨by simp [e], e ▸ hf, fun j hj hlt => ?_⟩, fun ⟨hm, _, hn⟩ => ?_⟩
      · obtain rfl | hj := List.mem_cons.1 hj
        · exact absurd hlt (e ▸ lt_irrefl _)
        · exact absurd (e ▸ ha j hj) (not_lt.2 hlt.le)
      · obtain rfl | hm := List.mem_cons.1 hm
        · rfl
        · simpa [hf] using hn a (by simp) (ha i hm)
    | false =>
      simp only [find_ascending hl, List.mem_cons]
      refine ⟨fun ⟨hm, ht, hn⟩ => ⟨.inr hm, ht, fun j hj hlt => ?_⟩, fun ⟨hm, ht, hn⟩ => ⟨?_, ht, fun j hj => hn j (.inr hj)⟩⟩
      · obtain rfl | hj := hj
        · exact hf
        · exact hn j hj hlt
      · obtain rfl | hm := hm
        · simp [hf] at ht
        · exact hm

/-- The free slot ADD takes is the lowest one. -/
theorem findFree_eq_some_iff {i : Fin 6} :
    findFree sl = some i ↔ (slot sl i).v = false ∧ ∀ j : Fin 6, j < i → (slot sl j).v = true := by
  rw [findFree, find_ascending (by decide)]
  simp [mem_slotIdx]

theorem pksCount_le : pksCount sl ≤ 6 :=
  List.countP_le_length (l := slotIdx)

theorem pksCount_eq_six_iff : pksCount sl = 6 ↔ ∀ i : Fin 6, (slot sl i).v = true := by
  have h : pksCount sl = slotIdx.length ↔ _ := List.countP_eq_length
  rw [show slotIdx.length = 6 from rfl] at h
  rw [h]
  exact ⟨fun h i => h i (mem_slotIdx i), fun h i _ => h i⟩

@[simp] theorem slot_setSlot (i j : Fin 6) (x : Slot) : slot (setSlot sl i x) j = if i = j then x else slot sl j := by
  simp only [slot, setSlot, Fin.getElem_fin, Vector.getElem_set, Fin.ext_iff]

/-! A freed slot keeps every field but V (R132). -/

@[simp] theorem freed_v (x : Slot) : (freed x).v = false := rfl
@[simp] theorem freed_ovr (x : Slot) : (freed x).ovr = x.ovr := rfl
@[simp] theorem freed_pos (x : Slot) : (freed x).pos = x.pos := rfl
@[simp] theorem freed_id (x : Slot) : (freed x).id = x.id := rfl

/-- Two slot files are equal when their six slots are. -/
theorem slots_ext {a b : Slots} (h : ∀ i, slot a i = slot b i) : a = b :=
  Vector.ext fun i hi => h ⟨i, hi⟩

/-- Everything ADD can do (R131). -/
theorem pksAdd_cases (sl : Slots) (id : KeyId) (pos : Position) (ovr : Ovr) :
    (pksContains sl id = true ∧ pksAdd sl id pos ovr = (.present, sl)) ∨
    (pksContains sl id = false ∧ (∀ i : Fin 6, (slot sl i).v = true) ∧ pksAdd sl id pos ovr = (.full, sl)) ∨
    (pksContains sl id = false ∧ ∃ i : Fin 6, findFree sl = some i ∧ (slot sl i).v = false ∧
      pksAdd sl id pos ovr = (.added, setSlot sl i ⟨true, ovr, pos, id⟩)) := by
  unfold pksAdd
  cases hc : pksContains sl id with
  | true => exact .inl ⟨rfl, by simp⟩
  | false =>
    cases hf : findFree sl with
    | none => exact .inr (.inl ⟨rfl, findFree_none.1 hf, by simp⟩)
    | some i => exact .inr (.inr ⟨rfl, i, rfl, findFree_some hf, by simp⟩)

/-- Everything REMOVE can do (R132). -/
theorem pksRemove_cases (sl : Slots) (id : KeyId) :
    ((∀ i : Fin 6, (slot sl i).v = true → (slot sl i).id ≠ id) ∧ pksRemove sl id = (.absent, sl)) ∨
    (∃ i : Fin 6, (slot sl i).v = true ∧ (slot sl i).id = id ∧
      pksRemove sl id = (.removed, setSlot sl i (freed (slot sl i)))) := by
  unfold pksRemove
  cases hf : findHeld sl id with
  | none => exact .inl ⟨findHeld_none.1 hf, rfl⟩
  | some i => exact .inr ⟨i, (findHeld_some hf).1, (findHeld_some hf).2, rfl⟩

/-! ### The matrix register file -/

theorem validRow_iff {r : RowNum} : validRow r = true ↔ 1 ≤ r.toNat ∧ r.toNat ≤ 8 := by
  simp [validRow]

theorem rowBits_invalid {m : Matrix} {r : RowNum} (h : validRow r = false) : rowBits m r = 0 := by
  rw [← Bool.not_eq_true, validRow_iff] at h
  simp [rowBits, h]

theorem writeRow_invalid {m : Matrix} {r : RowNum} (b : Byte) (h : validRow r = false) : writeRow m r b = m := by
  rw [← Bool.not_eq_true, validRow_iff] at h
  simp [writeRow, h]

theorem rowBits_writeRow (m : Matrix) (r q : RowNum) (b : Byte) :
    rowBits (writeRow m r b) q = if validRow r = true ∧ r = q then b else rowBits m q := by
  by_cases hr : 1 ≤ r.toNat ∧ r.toNat ≤ 8
  · by_cases hq : 1 ≤ q.toNat ∧ q.toNat ≤ 8
    · have e : r.toNat - 1 = q.toNat - 1 ↔ r = q := by rw [← BitVec.toNat_inj]; omega
      simp [rowBits, writeRow, hr, hq, validRow_iff, Vector.getElem_set, e]
    · have : r ≠ q := by rintro rfl; exact hq hr
      simp [rowBits, hq, this]
  · simp [writeRow, hr, validRow_iff]

/-- Two register files are equal when their eight rows read equal. -/
theorem matrix_ext {m n : Matrix} (h : ∀ r : RowNum, validRow r = true → rowBits m r = rowBits n r) : m = n := by
  apply Vector.ext
  intro i hi
  have e : (BitVec.ofNat 4 (i + 1)).toNat = i + 1 := by simp; omega
  have := h (BitVec.ofNat 4 (i + 1)) (validRow_iff.2 (by rw [e]; omega))
  have c : 1 ≤ i + 1 ∧ i + 1 ≤ 8 := by omega
  simpa [rowBits, e, c, hi] using this

theorem rowBits_cleared (r : RowNum) : rowBits clearedMatrix r = 0 := by
  by_cases h : 1 ≤ r.toNat ∧ r.toNat ≤ 8 <;> simp [rowBits, clearedMatrix, h]

/-- What ASSERT does to each row (R170). -/
theorem rowBits_assertBits (pos : Position) (m : Matrix) (r : RowNum) :
    rowBits (assertBits K pos m) r =
      if validRow r = true ∧ rowOf pos = r then rowBits m r ||| maskOf K pos else rowBits m r := by
  rw [assertBits, rowBits_writeRow]
  by_cases h : rowOf pos = r
  · subst h; simp
  · simp [h]

/-- What CLEAR does to each row (R171). -/
theorem rowBits_clearBits (pos : Position) (m : Matrix) (r : RowNum) :
    rowBits (clearBits K pos m) r =
      if validRow r = true ∧ rowOf pos = r then rowBits m r &&& ~~~(maskOf K pos) else rowBits m r := by
  rw [clearBits, rowBits_writeRow]
  by_cases h : rowOf pos = r
  · subst h; simp
  · simp [h]

/-- The loop of REBUILD leaves KEYBITS in every row (R174, R29). -/
theorem rowBits_keysMatrix (r : RowNum) (hr : validRow r = true) : rowBits (keysMatrix K sl) r = keyBits K sl r := by
  have step : ∀ (l : List (Fin 6)) (m : Matrix),
      rowBits (l.foldl (fun m i => if (slot sl i).v then assertBits K (slot sl i).pos m else m) m) r =
        rowBits m r |||
          l.foldr (fun i b => (if (slot sl i).v && rowOf (slot sl i).pos == r then maskOf K (slot sl i).pos else 0) ||| b) 0 := by
    intro l
    induction l with
    | nil => intro m; simp
    | cons i l ih =>
      intro m
      rw [List.foldl_cons, ih, List.foldr_cons, ← BitVec.or_assoc]
      congr 1
      cases hv : (slot sl i).v
      · simp
      · by_cases e : rowOf (slot sl i).pos = r
        · simp only [if_true, rowBits_assertBits, hr, e, and_self, Bool.true_and, beq_self_eq_true]
        · simp [rowBits_assertBits, e]
  rw [keysMatrix, step, rowBits_cleared]
  simp [keyBits]

/-- REBUILD leaves KEYBITS and SHIFTBITS in every row (R174, R29). -/
theorem rowBits_rebuilt (md : BitVec 4) (r : RowNum) (hr : validRow r = true) :
    rowBits (rebuiltMatrix K sl md) r = keyBits K sl r ||| shiftBits K sl md r := by
  cases hs : shiftEff sl md
  · simp [rebuiltMatrix, shiftBits, hs, rowBits_keysMatrix r hr]
  · by_cases e : rowOf K.shiftPos = r
    · simp [rebuiltMatrix, shiftBits, hs, rowBits_assertBits, hr, e, rowBits_keysMatrix r hr]
    · simp [rebuiltMatrix, shiftBits, hs, rowBits_assertBits, e, rowBits_keysMatrix r hr]

/-- A bit of KEYBITS is set iff some held key's position has it. -/
theorem keyBits_bit (r : RowNum) (c : Nat) :
    (keyBits K sl r).getLsbD c = true ↔
      ∃ i : Fin 6, (slot sl i).v = true ∧ rowOf (slot sl i).pos = r ∧ (maskOf K (slot sl i).pos).getLsbD c = true := by
  have step : ∀ l : List (Fin 6),
      (l.foldr (fun i b => (if (slot sl i).v && rowOf (slot sl i).pos == r then maskOf K (slot sl i).pos else 0) ||| b) 0#8).getLsbD c
        = true ↔ ∃ i ∈ l, (slot sl i).v = true ∧ rowOf (slot sl i).pos = r ∧ (maskOf K (slot sl i).pos).getLsbD c = true := by
    intro l
    induction l with
    | nil => simp
    | cons i l ih =>
      rw [List.foldr_cons, BitVec.getLsbD_or, Bool.or_eq_true, ih]
      cases hv : (slot sl i).v <;> by_cases e : rowOf (slot sl i).pos = r <;> simp [hv, e]
  refine (step slotIdx).trans ⟨fun ⟨i, _, h⟩ => ⟨i, h⟩, fun ⟨i, h⟩ => ⟨i, mem_slotIdx i, h⟩⟩

/-- A matrix that mirrors the slots and MOD is the one REBUILD writes. -/
theorem mirrors_iff (s : State) : s.Mirrors ↔ s.matrix = rebuiltMatrix s.keymap s.slots s.mod := by
  constructor
  · intro h
    exact matrix_ext fun r hr => by rw [h r hr, rowBits_rebuilt s.mod r hr]
  · intro h r hr
    rw [h, rowBits_rebuilt s.mod r hr]

/-! ### The override and the modifier register -/

theorem force1_iff : force1 sl = true ↔ ∃ i : Fin 6, (slot sl i).v = true ∧ (slot sl i).ovr = 0b11#2 := by
  simp only [force1, List.any_eq_true, Bool.and_eq_true, beq_iff_eq]
  exact ⟨fun ⟨i, _, h⟩ => ⟨i, h⟩, fun ⟨i, h⟩ => ⟨i, mem_slotIdx i, h⟩⟩

theorem force0_iff : force0 sl = true ↔ ∃ i : Fin 6, (slot sl i).v = true ∧ (slot sl i).ovr = 0b10#2 := by
  simp only [force0, List.any_eq_true, Bool.and_eq_true, beq_iff_eq]
  exact ⟨fun ⟨i, _, h⟩ => ⟨i, h⟩, fun ⟨i, h⟩ => ⟨i, mem_slotIdx i, h⟩⟩

/-- A modifier transition writes its own bit and keeps the others (R141 to R144). -/
theorem writeLine_bit (m : BitVec 4) (l : Line) (down : Bool) (j : Fin 4) :
    (writeLine m l down).getLsbD j = if modBit l = some j then down else m.getLsbD j := by
  cases l <;> revert m down j <;> decide

/-! ### The event operations -/

/-- Everything the end of a mapped make can do (R146, R147). -/
theorem press_cases (id : KeyId) (pos : Position) (ovr : Ovr) (q : Option ScQuery) (s : State) :
    (pksContains s.slots id = true ∧ press id pos ovr q s = s.report .duplicate q) ∨
    (pksContains s.slots id = false ∧ (∀ i : Fin 6, (slot s.slots i).v = true) ∧
      press id pos ovr q s = s.report .full q) ∨
    (pksContains s.slots id = false ∧ ∃ i : Fin 6, findFree s.slots = some i ∧ (slot s.slots i).v = false ∧
      press id pos ovr q s = ((s.setSlots (setSlot s.slots i ⟨true, ovr, pos, id⟩)).rebuild).report
        (if rowOk pos then .pressed else .pressedInvRow) q) := by
  unfold press
  obtain ⟨h, e⟩ | ⟨h, hf, e⟩ | ⟨h, i, hf, hi, e⟩ := pksAdd_cases s.slots id pos ovr
  · exact .inl ⟨h, by rw [e]⟩
  · exact .inr (.inl ⟨h, hf, by rw [e]⟩)
  · exact .inr (.inr ⟨h, i, hf, hi, by rw [e]⟩)

/-- Everything KEY.BR can do (R148). -/
theorem keyBreak_cases (id : KeyId) (s : State) :
    ((∀ i : Fin 6, (slot s.slots i).v = true → (slot s.slots i).id ≠ id) ∧ keyBreak id s = s.report .notHeld none) ∨
    (∃ i : Fin 6, (slot s.slots i).v = true ∧ (slot s.slots i).id = id ∧
      keyBreak id s = ((s.setSlots (setSlot s.slots i (freed (slot s.slots i)))).rebuild).report .released none) := by
  unfold keyBreak
  obtain ⟨h, e⟩ | ⟨i, hv, hi, e⟩ := pksRemove_cases s.slots id
  · exact .inl ⟨h, by rw [e]⟩
  · exact .inr ⟨i, hv, hi, by rw [e]⟩

/-- Everything SPECIAL.MK can do (R146). -/
theorem specialMake_cases (code : Code) (s : State) :
    specialMake code s = s.report .unmapped none ∨
    (∃ pos, lookupSpecial s.keymap (spKey code) = some pos ∧ unmapped pos = false ∧
      specialMake code s = press (keyId code) pos 0#2 none s) := by
  unfold specialMake
  cases h : lookupSpecial s.keymap (spKey code) with
  | none => exact .inl rfl
  | some pos =>
    cases hu : unmapped pos
    · exact .inr ⟨pos, rfl, hu, by simp [hu]⟩
    · exact .inl (by simp [hu])

/-- Everything PRINT.MK can do (R147). -/
theorem printMake_cases (code : Code) (s : State) :
    printMake code s = s.report .unmapped (some (s.query code)) ∨
    (∃ a pos, sc2ascii s.keymap (s.query code) = some a ∧ lookupAscii s.keymap a = some pos ∧
      printMake code s = press (keyId code) pos (lookupOvr s.keymap a) (some (s.query code)) s) := by
  unfold printMake
  cases h : sc2ascii s.keymap (s.query code) with
  | none => exact .inl rfl
  | some a =>
    cases h2 : lookupAscii s.keymap a with
    | none => exact .inl (by simp [h2])
    | some pos => exact .inr ⟨a, pos, rfl, h2, by simp [h2]⟩

/-- Everything a code can do (R140). -/
theorem runEvent_cases (code : Code) (s : State) :
    (∃ m, lookupMod s.keymap (keyId code) = some (shiftLine m) ∧ runEvent code s = shiftKey m (!rel code) s) ∨
    (∃ m, lookupMod s.keymap (keyId code) = some (ctrlLine m) ∧ runEvent code s = ctrlKey m (!rel code) s) ∨
    (lookupMod s.keymap (keyId code) = some .alt ∧ runEvent code s = altKey s) ∨
    (lookupMod s.keymap (keyId code) = none ∧ rel code = true ∧ runEvent code s = keyBreak (keyId code) s) ∨
    (lookupMod s.keymap (keyId code) = none ∧ rel code = false ∧
      (lookupSpecial s.keymap (spKey code)).isSome = true ∧ runEvent code s = specialMake code s) ∨
    (lookupMod s.keymap (keyId code) = none ∧ rel code = false ∧
      lookupSpecial s.keymap (spKey code) = none ∧ runEvent code s = printMake code s) := by
  unfold runEvent
  cases h : lookupMod s.keymap (keyId code) with
  | some l =>
    cases l
    · exact .inl ⟨.left, rfl, rfl⟩
    · exact .inl ⟨.right, rfl, rfl⟩
    · exact .inr (.inl ⟨.left, rfl, rfl⟩)
    · exact .inr (.inl ⟨.right, rfl, rfl⟩)
    · exact .inr (.inr (.inl ⟨rfl, rfl⟩))
  | none =>
    cases hr : rel code with
    | true => exact .inr (.inr (.inr (.inl ⟨rfl, rfl, by simp⟩)))
    | false =>
      cases hs : lookupSpecial s.keymap (spKey code) with
      | some p => exact .inr (.inr (.inr (.inr (.inl ⟨rfl, rfl, rfl, by simp⟩))))
      | none => exact .inr (.inr (.inr (.inr (.inr ⟨rfl, rfl, rfl, by simp⟩))))

end Sys2Proof.Machine
end

