-- ==== Sys2Proof/Laws/Tables.lean ====
section
/-! SUPPORT. What the code fields, the table lookups and the decoder can answer, said once. -/

namespace Sys2Proof.Machine

variable {K : Keymap}

/-! ### Code fields -/

/-- The bits of a code put together from its fields (R80). -/
theorem mkCode_bit (r s c : Bool) (id : KeyId) (i : Nat) :
    (mkCode r s c id).getLsbD i =
      if i < 13 then id.getLsbD i else if i = 13 then c else if i = 14 then s else if i = 15 then r else false := by
  show BitVec.getLsbD (w := 1 + 1 + 1 + 13) (BitVec.ofBool r ++ BitVec.ofBool s ++ BitVec.ofBool c ++ id) i = _
  rw [BitVec.getLsbD_append, BitVec.getLsbD_append, BitVec.getLsbD_append]
  simp only [BitVec.getLsbD_ofBool]
  have : i < 13 ∨ i = 13 ∨ i = 14 ∨ i = 15 ∨ 16 ≤ i := by omega
  obtain h | rfl | rfl | rfl | h := this
  · simp [h]
  · rfl
  · rfl
  · rfl
  · simp [show ¬i < 13 by omega, show i ≠ 13 by omega, show i ≠ 14 by omega, show i ≠ 15 by omega,
      show ¬i - 13 < 1 by omega, show ¬i - 13 - 1 < 1 by omega, show i - 13 - 1 - 1 ≠ 0 by omega]

@[simp] theorem rel_mkCode (r s c : Bool) (id : KeyId) : rel (mkCode r s c id) = r := by
  simp only [rel, mkCode_bit]; simp

@[simp] theorem keyId_mkCode (r s c : Bool) (id : KeyId) : keyId (mkCode r s c id) = id := by
  apply BitVec.eq_of_getLsbD_eq
  intro i hi
  simp only [keyId, BitVec.getLsbD_extractLsb', mkCode_bit]
  simp [hi]

/-- A code is put together from its fields (R80). -/
theorem mkCode_fields (code : Code) : mkCode (rel code) (shc code) (ctc code) (keyId code) = code := by
  apply BitVec.eq_of_getLsbD_eq
  intro i hi
  simp only [mkCode_bit, keyId, BitVec.getLsbD_extractLsb', rel, shc, ctc]
  grind

/-- SPKEY extends KEYID by the two context flags (R81). -/
theorem keyId_eq_of_spKey (code : Code) : (spKey code).extractLsb' 0 13 = keyId code := by
  apply BitVec.eq_of_getLsbD_eq
  intro i hi
  simp only [spKey, keyId, BitVec.getLsbD_extractLsb']
  grind

/-! ### Lookups -/

theorem lookupAscii_some {a : Byte} {p : Position} (h : lookupAscii K a = some p) :
    p ∈ K.tablePositions ∧ unmapped p = false := by
  unfold lookupAscii at h
  split at h
  · rename_i hr
    simp only at h
    split at h
    · cases h
    · rename_i hu
      cases h
      refine ⟨?_, by simpa using hu⟩
      simp [Keymap.tablePositions]
  · cases h

theorem lookupSpecial_some {k : SpKey} {p : Position} (h : lookupSpecial K k = some p) :
    ∃ e ∈ K.romSpecial, specialKey e = k ∧ specialPos e = p := by
  simp only [lookupSpecial, Option.map_eq_some_iff] at h
  obtain ⟨e, hf, rfl⟩ := h
  exact ⟨e, List.mem_of_find?_eq_some hf, by simpa using List.find?_some hf, rfl⟩

theorem lookupSpecial_mem {k : SpKey} {p : Position} (h : lookupSpecial K k = some p) : p ∈ K.tablePositions := by
  obtain ⟨e, he, _, rfl⟩ := lookupSpecial_some h
  exact List.mem_append.2 (.inr (List.mem_map_of_mem he))

/-- LOOKUP_OVR never answers 01 (R88, R113). -/
theorem lookupOvr_legal (a : Byte) : lookupOvr K a ≠ 0b01#2 := by
  unfold lookupOvr
  split
  · simp only
    split
    · rename_i h
      intro e
      simp [e] at h
    · decide
  · decide

theorem hasLine_iff {l : Line} : K.hasLine l = true ↔ ∃ e ∈ K.romMod, lookupMod K (modId e) = some l := by
  simp [Keymap.hasLine, List.any_eq_true]

/-- Some identity is a modifier key of the line as soon as one looks up so. -/
theorem hasLine_of_lookup {id : KeyId} {l : Line} (h : lookupMod K id = some l) : K.hasLine l = true := by
  have h' := h
  simp only [lookupMod, Option.map_eq_some_iff] at h'
  obtain ⟨e, hf, _⟩ := h'
  have hid : modId e = id := by simpa using List.find?_some hf
  exact hasLine_iff.2 ⟨e, List.mem_of_find?_eq_some hf, hid ▸ h⟩

end Sys2Proof.Machine

namespace Sys2Proof

open Machine

variable {K : Keymap}

/-! ### The encoder's parts -/

theorem lineId_some {l : Line} {id : KeyId} (h : lineId K l = some id) : lookupMod K id = some l := by
  simp only [lineId, Option.map_eq_some_iff] at h
  obtain ⟨e, hf, rfl⟩ := h
  simpa using List.find?_some hf

theorem lineId_isSome (l : Line) : (lineId K l).isSome = K.hasLine l := by
  rw [Bool.eq_iff_iff]
  simp [lineId, Keymap.hasLine, List.find?_isSome]

theorem lineWord_isSome (l : Line) (r : Bool) : (lineWord K l r).isSome = K.hasLine l := by
  rw [lineWord, Option.isSome_map, lineId_isSome]

theorem lineWord_some {l : Line} {r : Bool} {p : Port} {w : Nat} (h : lineWord K l r = some (p, w)) :
    ∃ id, lookupMod K id = some l ∧ p = .event ∧ w = (mkCode r false false id).toNat := by
  simp only [lineWord, Option.map_eq_some_iff, Prod.mk.injEq] at h
  obtain ⟨id, hi, hp, hw⟩ := h
  exact ⟨id, lineId_some hi, hp.symm, hw.symm⟩

/-- Stage 1 reads a 16-bit code whole. -/
theorem decode_event (code : Code) : decode .event code.toNat = .ok (.event code) := by
  have := code.isLt
  simp [decode, this]

theorem decode_read (row : RowNum) : decode .read row.toNat = .ok (.rd row) := by
  have := row.isLt
  simp [decode, this]

theorem decodeOp_event (code : Code) : decodeOp K .event code.toNat = .ok (select K code) := by
  simp [decodeOp, decode_event]

/-- Stage 1 reads every activity as the instruction the step runs. -/
theorem decode_activity (a : Activity) : decode a.port a.word = .ok a.instr := by
  cases a with
  | event code => exact decode_event code
  | read row => exact decode_read row
  | reset d => rfl

end Sys2Proof
end

