-- ==== Sys2Proof/Laws/Events.lean ====
section
/-! SUPPORT. What an event can do to the state, said once, and how the quantities the claims speak of follow a change of one
slot. -/

namespace Sys2Proof.Machine

variable {sl : Slots} {K : Keymap}

/-! ### A change of one slot -/

theorem setSlot_setSlot (i : Fin 6) (x y : Slot) : setSlot (setSlot sl i x) i y = setSlot sl i y := by
  apply slots_ext
  intro j
  simp only [slot_setSlot]
  split <;> rfl

/-- Some held key has a property after a free slot is filled: the new key has it, or an old one. -/
theorem exists_filled {i : Fin 6} {x : Slot} (hi : (slot sl i).v = false) (hx : x.v = true) {P : Slot → Prop} :
    (∃ j, (slot (setSlot sl i x) j).v = true ∧ P (slot (setSlot sl i x) j)) ↔
      P x ∨ ∃ j, (slot sl j).v = true ∧ P (slot sl j) := by
  constructor
  · rintro ⟨j, a, b⟩
    rw [slot_setSlot] at a b
    split at a
    · rename_i h; rw [if_pos h] at b; exact .inl b
    · rename_i h; rw [if_neg h] at b; exact .inr ⟨j, a, b⟩
  · rintro (h | ⟨j, a, b⟩)
    · exact ⟨i, by simp [hx], by simpa⟩
    · have : i ≠ j := by rintro rfl; simp [hi] at a
      exact ⟨j, by simp [this, a], by simpa [this]⟩

/-- Some held key has a property after a slot is freed: one of the other slots had it. -/
theorem exists_freed {i : Fin 6} {x : Slot} (hx : x.v = false) {P : Slot → Prop} :
    (∃ j, (slot (setSlot sl i x) j).v = true ∧ P (slot (setSlot sl i x) j)) ↔
      ∃ j, j ≠ i ∧ (slot sl j).v = true ∧ P (slot sl j) := by
  constructor
  · rintro ⟨j, a, b⟩
    rw [slot_setSlot] at a b
    split at a
    · simp [hx] at a
    · rename_i h; rw [if_neg h] at b; exact ⟨j, fun e => h e.symm, a, b⟩
  · rintro ⟨j, h, a, b⟩
    have : i ≠ j := fun e => h e.symm
    exact ⟨j, by simp [this, a], by simpa [this]⟩

theorem exists_lowestFree (h : ¬Full sl) : ∃ i, LowestFree sl i := by
  cases hf : findFree sl with
  | none => exact absurd (findFree_none.1 hf) h
  | some i => exact ⟨i, findFree_eq_some_iff.1 hf⟩

/-! ### Bits of the matrix -/

/-- A bit of a mirroring state is set iff a held key has it, or SHIFT has it and is shown (R29). -/
theorem mirrors_bit {s : State} (h : s.Mirrors) {r : RowNum} (hr : validRow r = true) (c : Nat) :
    (rowBits s.matrix r).getLsbD c = true ↔
      (∃ i : Fin 6, (slot s.slots i).v = true ∧ KeyPlace s.keymap (slot s.slots i).pos r c) ∨
      (shiftEff s.slots s.mod = true ∧ ShiftPlace s.keymap r c) := by
  rw [h r hr, BitVec.getLsbD_or, Bool.or_eq_true, keyBits_bit]
  apply or_congr Iff.rfl
  unfold shiftBits ShiftPlace
  by_cases h1 : rowOf s.keymap.shiftPos = r <;> cases h2 : shiftEff s.slots s.mod <;> simp [h1]

theorem rebuild_mirrors (s : State) : s.rebuild.Mirrors := (mirrors_iff _).2 rfl

theorem assertBits_bit (pos : Position) (m : Matrix) {r : RowNum} (hr : validRow r = true) (c : Nat) :
    (rowBits (assertBits K pos m) r).getLsbD c = true ↔ (rowBits m r).getLsbD c = true ∨ KeyPlace K pos r c := by
  rw [rowBits_assertBits]
  unfold KeyPlace
  split
  · rename_i h; simp [h.2]
  · rename_i h; simp [hr] at h; simp [h]

theorem clearBits_bit (pos : Position) (m : Matrix) {r : RowNum} (hr : validRow r = true) {c : Nat} (hc : c < 8) :
    (rowBits (clearBits K pos m) r).getLsbD c = true ↔ (rowBits m r).getLsbD c = true ∧ ¬KeyPlace K pos r c := by
  rw [rowBits_clearBits]
  unfold KeyPlace
  split
  · rename_i h; simp [h.2, hc]
  · rename_i h; simp [hr] at h; simp [h]

/-- Two register files are equal when they have the same bits set in the rows 1 to 8. -/
theorem matrix_ext_bit {m n : Matrix}
    (h : ∀ r, validRow r = true → ∀ c < 8, ((rowBits m r).getLsbD c = true ↔ (rowBits n r).getLsbD c = true)) : m = n :=
  matrix_ext fun r hr => BitVec.eq_of_getLsbD_eq fun c hc => by rw [Bool.eq_iff_iff]; exact h r hr c hc

/-- A control key's bit takes no part in the rebuild (R25: `ctrl_down` reaches MATRIX only through SC2ASCII). -/
theorem rebuiltMatrix_ctrl (md : BitVec 4) (m : CtrlKey) (d : Bool) :
    rebuiltMatrix K sl (writeLine md (ctrlLine m) d) = rebuiltMatrix K sl md := by
  have : shiftPhys (writeLine md (ctrlLine m) d) = shiftPhys md := by
    have b0 := writeLine_bit md (ctrlLine m) d 0
    have b1 := writeLine_bit md (ctrlLine m) d 1
    unfold shiftPhys
    cases m <;> simp [ctrlLine, modBit] at b0 b1 ⊢ <;> rw [b0, b1]
  simp only [rebuiltMatrix, shiftEff, this]
  rfl

/-! ### The ends of a make and of a break -/

theorem pksContains_iff_held (id : KeyId) : pksContains sl id = true ↔ Held sl id := pksContains_iff id

section
variable {s : State} {id : KeyId} {pos : Position} {ovr : Ovr} {q : Option ScQuery} {i : Fin 6}

theorem press_of_held (h : Held s.slots id) : press id pos ovr q s = s.report .duplicate q := by
  obtain ⟨_, e⟩ | ⟨h', _, _⟩ | ⟨h', _⟩ := press_cases id pos ovr q s
  · exact e
  · simp [(pksContains_iff_held id).2 h] at h'
  · simp [(pksContains_iff_held id).2 h] at h'

theorem press_of_full (h : ¬Held s.slots id) (hf : Full s.slots) : press id pos ovr q s = s.report .full q := by
  obtain ⟨h', _⟩ | ⟨_, _, e⟩ | ⟨_, i, _, hi, _⟩ := press_cases id pos ovr q s
  · exact absurd ((pksContains_iff_held id).1 h') h
  · exact e
  · simp [hf i] at hi

theorem press_of_free (h : ¬Held s.slots id) (hf : LowestFree s.slots i) :
    press id pos ovr q s = ((s.setSlots (setSlot s.slots i ⟨true, ovr, pos, id⟩)).rebuild).report
      (if rowOk pos then .pressed else .pressedInvRow) q := by
  obtain ⟨h', _⟩ | ⟨_, hh, _⟩ | ⟨_, j, hj, _, e⟩ := press_cases id pos ovr q s
  · exact absurd ((pksContains_iff_held id).1 h') h
  · have := hf.1; simp [hh i] at this
  · rw [findFree_eq_some_iff.2 hf] at hj; cases hj; exact e

theorem keyBreak_of_absent (h : ¬Held s.slots id) : keyBreak id s = s.report .notHeld none := by
  obtain ⟨_, e⟩ | ⟨j, a, b, _⟩ := keyBreak_cases id s
  · exact e
  · exact absurd ⟨j, a, b⟩ h

theorem keyBreak_of_held (hd : Distinct s.slots) (hv : (slot s.slots i).v = true) (hi : (slot s.slots i).id = id) :
    keyBreak id s = ((s.setSlots (setSlot s.slots i (freed (slot s.slots i)))).rebuild).report .released none := by
  obtain ⟨h, _⟩ | ⟨j, a, b, e⟩ := keyBreak_cases id s
  · exact absurd hi (h i hv)
  · rw [e, hd j i a hv (b.trans hi.symm)]

end

/-- What the end of a mapped make leaves unchanged: MOD, every slot but the lowest free one, and everything but the outputs when
the key is held already or no slot is free. -/
theorem press_frame (id : KeyId) (pos : Position) (ovr : Ovr) (q : Option ScQuery) (s : State) :
    (press id pos ovr q s).keymap = s.keymap ∧ (press id pos ovr q s).inputs = s.inputs ∧
    (press id pos ovr q s).mod = s.mod ∧
    (∀ j : Fin 6, findFree s.slots ≠ some j → slot (press id pos ovr q s).slots j = slot s.slots j) ∧
    (Held s.slots id ∨ findFree s.slots = none → s.Unchanged (press id pos ovr q s)) := by
  obtain ⟨_, e⟩ | ⟨_, _, e⟩ | ⟨hc, i, hi, _, e⟩ := press_cases id pos ovr q s <;> rw [e]
  · exact ⟨rfl, rfl, rfl, fun _ _ => rfl, fun _ => ⟨rfl, rfl, rfl, rfl, rfl⟩⟩
  · exact ⟨rfl, rfl, rfl, fun _ _ => rfl, fun _ => ⟨rfl, rfl, rfl, rfl, rfl⟩⟩
  · refine ⟨rfl, rfl, rfl, fun j hj => ?_, ?_⟩
    · have : i ≠ j := by rintro rfl; exact hj hi
      simp [this]
    · rintro (h | h)
      · simp [(pksContains_iff_held id).2 h] at hc
      · simp [h] at hi

/-- What KEY.BR leaves unchanged: MOD, every slot but the one found, and everything but the outputs when none is. -/
theorem keyBreak_frame (id : KeyId) (s : State) :
    (keyBreak id s).keymap = s.keymap ∧ (keyBreak id s).inputs = s.inputs ∧ (keyBreak id s).mod = s.mod ∧
    (∀ j : Fin 6, findHeld s.slots id ≠ some j → slot (keyBreak id s).slots j = slot s.slots j) ∧
    (findHeld s.slots id = none → s.Unchanged (keyBreak id s)) := by
  unfold keyBreak pksRemove
  cases h : findHeld s.slots id with
  | none => exact ⟨rfl, rfl, rfl, fun _ _ => rfl, fun _ => ⟨rfl, rfl, rfl, rfl, rfl⟩⟩
  | some i =>
    refine ⟨rfl, rfl, rfl, fun j hj => ?_, fun h => by cases h⟩
    have : i ≠ j := by rintro rfl; exact hj rfl
    simp [this]

/-- A key's make resolves to nothing and is dropped, or to a mapped table position, with which it ends in `press`
(R146, R147, R149). -/
theorem runEvent_make {s : State} {code : Code} (h : KeyMake s.keymap code) :
    (s.resolution code = none ∧ ∃ q, runEvent code s = s.report .unmapped q) ∨
    ∃ p o q, s.resolution code = some (p, o) ∧ o ≠ 0b01#2 ∧ p ∈ s.keymap.tablePositions ∧ unmapped p = false ∧
      runEvent code s = press (keyId code) p o q s := by
  obtain ⟨h, hr⟩ := h
  unfold runEvent State.resolution resolve
  rw [h]
  simp only [hr]
  cases hs : lookupSpecial s.keymap (spKey code) with
  | some p =>
    simp only [specialMake, hs]
    cases hu : unmapped p
    · exact .inr ⟨p, 0#2, none, by simp, by decide, lookupSpecial_mem hs, hu, by simp⟩
    · exact .inl ⟨by simp, none, by simp⟩
  | none =>
    simp only [printMake]
    rw [show s.query code = ⟨spKey code, shiftPhys s.mod, ctrlDown s.mod⟩ from rfl]
    cases sc2ascii s.keymap ⟨spKey code, shiftPhys s.mod, ctrlDown s.mod⟩ with
    | none => exact .inl ⟨rfl, _, rfl⟩
    | some a =>
      simp only
      cases hp : lookupAscii s.keymap a with
      | none => exact .inl ⟨rfl, _, rfl⟩
      | some p => exact .inr ⟨p, _, _, rfl, lookupOvr_legal a, (lookupAscii_some hp).1, (lookupAscii_some hp).2, rfl⟩

theorem runEvent_break {s : State} {code : Code} (h : lookupMod s.keymap (keyId code) = none) (hr : rel code = true) :
    runEvent code s = keyBreak (keyId code) s := by
  simp [runEvent, h, hr]

/-- Everything an event can do to the state: a modifier's MOD bit with or without a rebuild, nothing, a free slot filled, or
a held slot freed. -/
theorem runEvent_effect (code : Code) (s : State) :
    (∃ m, lookupMod s.keymap (keyId code) = some (shiftLine m) ∧ runEvent code s = shiftKey m (!rel code) s) ∨
    (∃ m, lookupMod s.keymap (keyId code) = some (ctrlLine m) ∧ runEvent code s = ctrlKey m (!rel code) s) ∨
    (lookupMod s.keymap (keyId code) = some .alt ∧ runEvent code s = altKey s) ∨
    (lookupMod s.keymap (keyId code) = none ∧ ∃ st q, runEvent code s = s.report st q) ∨
    (lookupMod s.keymap (keyId code) = none ∧ rel code = false ∧ ∃ i p o st q,
      (slot s.slots i).v = false ∧ ¬Held s.slots (keyId code) ∧ o ≠ 0b01#2 ∧ p ∈ s.keymap.tablePositions ∧
      unmapped p = false ∧
      runEvent code s = ((s.setSlots (setSlot s.slots i ⟨true, o, p, keyId code⟩)).rebuild).report st q) ∨
    (lookupMod s.keymap (keyId code) = none ∧ rel code = true ∧ ∃ i,
      (slot s.slots i).v = true ∧ (slot s.slots i).id = keyId code ∧
      runEvent code s = ((s.setSlots (setSlot s.slots i (freed (slot s.slots i)))).rebuild).report .released none) := by
  obtain h | h | h | ⟨h, hr, e⟩ | ⟨h, hr, _⟩ | ⟨h, hr, _⟩ := runEvent_cases code s
  · exact .inl h
  · exact .inr (.inl h)
  · exact .inr (.inr (.inl h))
  · obtain ⟨_, e2⟩ | ⟨j, a, b, e2⟩ := keyBreak_cases (keyId code) s
    · exact .inr (.inr (.inr (.inl ⟨h, _, _, e.trans e2⟩)))
    · exact .inr (.inr (.inr (.inr (.inr ⟨h, hr, j, a, b, e.trans e2⟩))))
  all_goals
    obtain ⟨_, q, e⟩ | ⟨p, o, q, _, ho, hp, hu, e⟩ := runEvent_make (s := s) (code := code) ⟨h, hr⟩
    · exact .inr (.inr (.inr (.inl ⟨h, _, _, e⟩)))
    · obtain ⟨_, e2⟩ | ⟨_, _, e2⟩ | ⟨hc, i, _, hi, e2⟩ := press_cases (keyId code) p o q s
      · exact .inr (.inr (.inr (.inl ⟨h, _, _, e.trans e2⟩)))
      · exact .inr (.inr (.inr (.inl ⟨h, _, _, e.trans e2⟩)))
      · refine .inr (.inr (.inr (.inr (.inl ⟨h, hr, i, p, o, _, q, hi, ?_, ho, hp, hu, e.trans e2⟩))))
        rw [← pksContains_iff_held, hc]
        simp

end Sys2Proof.Machine
end

