-- ==== Sys2Proof/Laws/Exec.lean ====
section
/-! SUPPORT. What exec and step are, one equation per operation, so that no proof unfolds the dispatch. -/

namespace Sys2Proof.Machine

variable (s : State)

theorem exec_shiftMk (m : ShiftKey) :
    exec (.shiftMk m) s = .next (shiftKey m true s) := rfl

theorem exec_shiftBr (m : ShiftKey) :
    exec (.shiftBr m) s = .next (shiftKey m false s) := rfl

theorem exec_ctrlMk (m : CtrlKey) :
    exec (.ctrlMk m) s = .next (ctrlKey m true s) := rfl

theorem exec_ctrlBr (m : CtrlKey) :
    exec (.ctrlBr m) s = .next (ctrlKey m false s) := rfl

theorem exec_altMk :
    exec .altMk s = .next (altKey s) := rfl

theorem exec_altBr :
    exec .altBr s = .next (altKey s) := rfl

theorem exec_specialMk (code : Code) :
    exec (.specialMk code) s = .next (specialMake code s) := rfl

theorem exec_printMk (code : Code) :
    exec (.printMk code) s = .next (printMake code s) := rfl

theorem exec_keyBr (id : KeyId) :
    exec (.keyBr id) s = .next (keyBreak id s) := rfl

theorem exec_event (code : Code) :
    exec (.event code) s = .next (runEvent code s) := rfl

theorem exec_rd (row : RowNum) :
    exec (.rd row) s = .next (s.setOut { Output.silent with rdData := some (rowBits s.matrix row) }) := rfl

theorem exec_rst :
    exec .rst s = .next (resetOp s) := rfl

theorem exec_lookupAscii (a : Byte) :
    exec (.lookupAscii a) s = .next (s.answer (.position (lookupAscii s.keymap a))) := rfl

theorem exec_lookupSpecial (k : SpKey) :
    exec (.lookupSpecial k) s = .next (s.answer (.position (lookupSpecial s.keymap k))) := rfl

theorem exec_lookupMod (id : KeyId) :
    exec (.lookupMod id) s = .next (s.answer (.line (lookupMod s.keymap id))) := rfl

theorem exec_lookupOvr (a : Byte) :
    exec (.lookupOvr a) s = .next (s.answer (.override (lookupOvr s.keymap a))) := rfl

theorem exec_sc2ascii (k : SpKey) (sh ct : Bool) :
    exec (.sc2ascii k sh ct) s = .next (s.setOut { Output.silent with
      sc := some ⟨k, sh, ct⟩, answer := .ascii (sc2ascii s.keymap ⟨k, sh, ct⟩) }) := rfl

theorem exec_resolve (code : Code) :
    exec (.resolve code) s = .next (s.setOut { Output.silent with
      sc := resolveQuery s.keymap code (shiftPhys s.mod) (ctrlDown s.mod),
      answer := .resolved (resolve s.keymap code (shiftPhys s.mod) (ctrlDown s.mod)) }) := rfl

theorem exec_contains (id : KeyId) :
    exec (.contains id) s = .next (s.answer (.bit (pksContains s.slots id))) := rfl

theorem exec_add (id : KeyId) (pos : Position) (ovr : Ovr) :
    exec (.add id pos ovr) s = .next ((s.setSlots (pksAdd s.slots id pos ovr).2).answer (.add (pksAdd s.slots id pos ovr).1)) := rfl

theorem exec_remove (id : KeyId) :
    exec (.remove id) s = .next ((s.setSlots (pksRemove s.slots id).2).answer (.remove (pksRemove s.slots id).1)) := rfl

theorem exec_count :
    exec .count s = .next (s.answer (.count (pksCount s.slots))) := rfl

theorem exec_pksClear :
    exec .pksClear s = .next ((s.setSlots pksClear).answer .none) := rfl

theorem exec_assertPos (pos : Position) :
    exec (.assertPos pos) s = .next ((s.setMatrix (assertBits s.keymap pos s.matrix)).answer .none) := rfl

theorem exec_clearPos (pos : Position) :
    exec (.clearPos pos) s = .next ((s.setMatrix (clearBits s.keymap pos s.matrix)).answer .none) := rfl

theorem exec_clearAll :
    exec .clearAll s = .next ((s.setMatrix clearedMatrix).answer .none) := rfl

theorem exec_rebuild :
    exec .rebuild s = .next (s.rebuild.answer .none) := rfl

/-- With no activity the block idles. -/
theorem step_idle {s : State} (h : s.inputs = []) : step s = .next (s.setOut Output.silent) := by rw [step, h]

/-- Otherwise the oldest activity is run. -/
theorem step_cons {s : State} {a : Activity} {rest : List Activity} (h : s.inputs = a :: rest) :
    step s = exec a.instr (s.setInputs rest) := by rw [step, h]

end Sys2Proof.Machine
end

