-- ==== Sys2Proof/Laws/PerInstr.lean ====
section
/-! SUPPORT. Per-instruction families. `EncodesIffWf`: the encoder gives an instruction a word exactly when it is well formed
and not one of the internal primitives, which have no encoding. -/

namespace Sys2Proof.Laws.EncodesIffWf

open Sys2Proof.Machine

/-- With every configuration, the instruction has a word iff it is well formed and no internal primitive. -/
def Statement (i : Instr) : Prop := ∀ K : Keymap, (encode K i).isSome = (i.wf K && !i.internal)

/-- A word given under a check is there iff the check passes. -/
theorem isSome_guard {α : Type} (b : Bool) (x : α) : (if b then some x else none).isSome = (b && true) := by
  cases b <;> rfl

theorem shiftMk (m : ShiftKey) : Statement (.shiftMk m) :=
  fun _ => (lineWord_isSome _ _).trans (Bool.and_true _).symm

theorem shiftBr (m : ShiftKey) : Statement (.shiftBr m) :=
  fun _ => (lineWord_isSome _ _).trans (Bool.and_true _).symm

theorem ctrlMk (m : CtrlKey) : Statement (.ctrlMk m) :=
  fun _ => (lineWord_isSome _ _).trans (Bool.and_true _).symm

theorem ctrlBr (m : CtrlKey) : Statement (.ctrlBr m) :=
  fun _ => (lineWord_isSome _ _).trans (Bool.and_true _).symm

theorem altMk : Statement .altMk := fun _ => (lineWord_isSome _ _).trans (Bool.and_true _).symm

theorem altBr : Statement .altBr := fun _ => (lineWord_isSome _ _).trans (Bool.and_true _).symm

theorem specialMk (code : Code) : Statement (.specialMk code) :=
  fun _ => isSome_guard _ _

theorem printMk (code : Code) : Statement (.printMk code) :=
  fun _ => isSome_guard _ _

theorem keyBr (id : KeyId) : Statement (.keyBr id) :=
  fun _ => isSome_guard _ _

theorem event (code : Code) : Statement (.event code) := fun _ => rfl
theorem rd (row : RowNum) : Statement (.rd row) := fun _ => rfl
theorem rst : Statement .rst := fun _ => rfl
theorem lookupAscii (a : Byte) : Statement (.lookupAscii a) := fun _ => rfl
theorem lookupSpecial (k : SpKey) : Statement (.lookupSpecial k) := fun _ => rfl
theorem lookupMod (id : KeyId) : Statement (.lookupMod id) := fun _ => rfl
theorem lookupOvr (a : Byte) : Statement (.lookupOvr a) := fun _ => rfl
theorem sc2ascii (k : SpKey) (sh ct : Bool) : Statement (.sc2ascii k sh ct) := fun _ => rfl
theorem resolve (code : Code) : Statement (.resolve code) := fun _ => rfl
theorem contains (id : KeyId) : Statement (.contains id) := fun _ => rfl
theorem add (id : KeyId) (pos : Position) (ovr : Ovr) : Statement (.add id pos ovr) :=
  fun _ => (Bool.and_false _).symm
theorem remove (id : KeyId) : Statement (.remove id) := fun _ => rfl
theorem count : Statement .count := fun _ => rfl
theorem pksClear : Statement .pksClear := fun _ => rfl
theorem assertPos (pos : Position) : Statement (.assertPos pos) := fun _ => rfl
theorem clearPos (pos : Position) : Statement (.clearPos pos) := fun _ => rfl
theorem clearAll : Statement .clearAll := fun _ => rfl
theorem rebuild : Statement .rebuild := fun _ => rfl

end Sys2Proof.Laws.EncodesIffWf
end

