-- ==== Sys2Proof/Tests/Slice0.lean ====
section
/-! SUPPORT. Tests: the well-formedness smoke tests, words decoded as the spec lays them out, one-step vectors of
95_test_vectors.md, and for each obligation with hypotheses a case that meets them. -/

namespace Sys2Proof.Tests

open Sys2Proof Sys2Proof.Machine

/-! ### Configurations T1, T2, T1R (95_test_vectors.md section 1) -/

def romAsciiT1 : Vector Position 96 :=
  (#v[0x7F, 0x41, 0x42, 0xFF, 0xFF, 0xFF, 0xFF, 0x44, 0xFF, 0xFF, 0xFF, 0xFF, 0xFF, 0xFF, 0xFF, 0xFF] : Vector Position 16) ++
  (#v[0xFF, 0x41, 0x42, 0xFF, 0xFF, 0xFF, 0xFF, 0x44, 0xFF, 0xFF, 0xFF, 0xFF, 0xFF, 0xFF, 0xFF, 0xFF] : Vector Position 16) ++
  (#v[0x31, 0x11, 0x12, 0x14, 0x18, 0x21, 0x22, 0x24, 0x28, 0xFF, 0xFF, 0xFF, 0xFF, 0xFF, 0xFF, 0xFF] : Vector Position 16) ++
  (#v[0xFF, 0xFF, 0xFF, 0xFF, 0xFF, 0xFF, 0xFF, 0xFF, 0xFF, 0xFF, 0xFF, 0xFF, 0xFF, 0xFF, 0xFF, 0xFF] : Vector Position 16) ++
  (#v[0xFF, 0x11, 0x12, 0x14, 0x18, 0x21, 0x22, 0x24, 0x28, 0xFF, 0xFF, 0xFF, 0xFF, 0xFF, 0xFF, 0xFF] : Vector Position 16) ++
  (#v[0xFF, 0xFF, 0xFF, 0xFF, 0xFF, 0xFF, 0xFF, 0xFF, 0xFF, 0xFF, 0xFF, 0xFF, 0xFF, 0xFF, 0xFF, 0xFF] : Vector Position 16)

/-- Key, character without shift, character with shift; under control no key has one. -/
def keysT1 : List (SpKey × Byte × Byte) :=
  [(0x41, 0x61, 0x41), (0x42, 0x62, 0x42), (0x43, 0x63, 0x43), (0x44, 0x64, 0x44), (0x45, 0x65, 0x45), (0x46, 0x66, 0x46),
   (0x47, 0x67, 0x47), (0x48, 0x68, 0x48)] ++
  [(0x5A, 0x7A, 0x5A), (0x31, 0x31, 0x21), (0x32, 0x32, 0x40), (0x37, 0x37, 0x26), (0x27, 0x27, 0x22), (0x20, 0x20, 0x20),
   (0x7F, 0x7F, 0x7F), (0x09, 0x09, 0x09)]

/-- T1's SC2ASCII ignores the code's context flags. -/
def scT1 : List (ScQuery × Byte) :=
  ([0x0000, 0x2000, 0x4000, 0x6000] : List SpKey).flatMap fun f =>
    keysT1.flatMap fun e => [(⟨e.1 ||| f, false, false⟩, e.2.1), (⟨e.1 ||| f, true, false⟩, e.2.2)]

def romSpecialT1 : List (BitVec 24) := [0x001E61, 0x011762, 0x016164, 0x016968, 0x0029FF]

def romModT1 : List (BitVec 16) := [0x0006, 0x2007, 0x4008, 0x6108, 0x800A, 0x810A]

def t1 : Keymap where
  romAscii := romAsciiT1
  romSpecial := romSpecialT1
  romMod := romModT1
  romOvr := Config.romOvrDefault
  sc2ascii := scT1
  shiftPos := 0x81
  spaceMask := 0x80
  coldec := Config.coldecDefault

def t2 : Keymap := { t1 with romOvr := (Config.romOvrDefault.set 0x20 0b10).set 0x07 0b11 }

def t1r : Keymap := { t1 with romAscii := (romAsciiT1.set 0x3A 0x91).set 0x5A 0x91 }

/-! ### Small states, and what a step shows of them -/

def noRows : Matrix := clearedMatrix

def noSlots : Vector (BitVec 24) 6 := Vector.replicate 6 0

def start (K : Keymap) (m : Matrix) (w : Vector (BitVec 24) 6) (md : BitVec 4) : State where
  matrix := m
  slots := #v[slotOfWord w[0], slotOfWord w[1], slotOfWord w[2], slotOfWord w[3], slotOfWord w[4], slotOfWord w[5]]
  mod := md
  keymap := K
  inputs := []
  out := Output.silent

/-- Rows, V-masked slot words, MOD and EVSTAT, as the vectors give them. -/
structure View where
  rows  : List Byte
  slots : List (BitVec 24)
  mod   : BitVec 4
  st    : Option (BitVec 3)
deriving DecidableEq, Repr

def viewOf (s : State) : View :=
  ⟨s.matrix.toList, s.slots.toList.map fun x => if x.v then slotWord x else 0, s.mod, s.out.evstat.map evstatCode⟩

def after (i : Instr) (s : State) : Option View :=
  match exec i s with
  | .next t => some (viewOf t)
  | _ => none

def outOf (i : Instr) (s : State) : Option Output :=
  match exec i s with
  | .next t => some t.out
  | _ => none

/-- T1 right after RST. -/
def s0 : State := start t1 noRows noSlots 0

/-- T1 with six keys A to F held. -/
def full : State :=
  start t1 #v[0x0F, 0x03, 0, 0, 0, 0, 0, 0] #v[0x822041, 0x824042, 0x828043, 0x830044, 0x842045, 0x844046] 0

/-- T1 with the left shift key down and key A held. -/
def shiftA : State := start t1 #v[0x01, 0, 0, 0, 0, 0, 0, 0x01] #v[0x822041, 0, 0, 0, 0, 0] 1

/-! ### Well-formedness: each check refuses a term that fails it (00_scope.md R6) -/

theorem test_wf_t1 : t1.wf = true ∧ t2.wf = true := by decide

theorem test_wf_refuses_invalid_row : t1r.wfPositions = false ∧ t1r.wf = false := by decide

theorem test_wf_refuses_two_bit_mask : ({ t1 with romSpecial := [0x001E13] }).wfPositions = false := by decide

theorem test_wf_refuses_repeated_special : ({ t1 with romSpecial := [0x001E61, 0x001E62] }).wfSpecialKeys = false := by decide

theorem test_wf_refuses_special_bit15 : ({ t1 with romSpecial := [0x801E61] }).wfSpecialKeys = false := by decide

theorem test_wf_refuses_split_letter : ({ t1 with romAscii := romAsciiT1.set 0x21 0x12 }).wfLetters = false := by decide

theorem test_wf_refuses_space_row : ({ t1 with romAscii := romAsciiT1.set 0 0x6F }).wfSpace = false := by decide

theorem test_wf_refuses_second_sentinel : ({ t1 with romAscii := romAsciiT1.set 1 0x1F }).wfSpace = false := by decide

theorem test_wf_refuses_entry_95 : ({ t1 with romAscii := romAsciiT1.set 95 0x11 }).wfLastEntry = false := by decide

theorem test_wf_refuses_shared_shift : ({ t1 with shiftPos := 0x11 }).wfShiftPos = false := by decide

theorem test_wf_refuses_shift_row : ({ t1 with shiftPos := 0x91 }).wfShiftPos = false := by decide

theorem test_wf_refuses_repeated_modifier : ({ t1 with romMod := [0x0006, 0x2006] }).wfModIds = false := by decide

theorem test_wf_refuses_special_modifier : ({ t1 with romMod := [0x001E] }).wfModIds = false := by decide

theorem test_wf_refuses_space_mask : ({ t1 with spaceMask := 0x81 }).wfSpaceMask = false := by decide

theorem test_wf_refuses_seventeen_modifiers :
    ({ t1 with romMod := List.replicate 17 0x0006 }).wfSizes = false := by decide

/-- No key of the configuration selects these, or the operands never occur. -/
theorem test_wf_refuses_instructions :
    (Instr.shiftMk .right).wf { t1 with romMod := [0x0006] } = false ∧
    (Instr.shiftBr .right).wf { t1 with romMod := [0x0006] } = false ∧
    (Instr.ctrlMk .left).wf { t1 with romMod := [0x0006] } = false ∧
    (Instr.ctrlBr .right).wf { t1 with romMod := [0x0006] } = false ∧
    Instr.altMk.wf { t1 with romMod := [0x0006] } = false ∧ Instr.altBr.wf { t1 with romMod := [0x0006] } = false ∧
    (Instr.specialMk 0x801E).wf t1 = false ∧ (Instr.specialMk 0x0006).wf t1 = false ∧ (Instr.specialMk 0x0041).wf t1 = false ∧
    (Instr.printMk 0x8041).wf t1 = false ∧ (Instr.printMk 0x0006).wf t1 = false ∧ (Instr.printMk 0x001E).wf t1 = false ∧
    (Instr.keyBr 0x0006).wf t1 = false ∧ (Instr.add 0 0 0b01).wf t1 = false := by decide

/-! ### Decoding: words written out from 30_encoding.md R80, R90, R95 -/

/-- Section 3.1 of the vectors. -/
theorem test_code_fields :
    (rel 0xE117, shc 0xE117, ctc 0xE117, keyId 0xE117, spKey 0xE117) = (true, true, true, 0x0117, 0x6117) ∧
    (rel 0x8000, keyId 0x8000, spKey 0x8000) = (true, 0x0000, 0x0000) ∧
    (rel 0xFFFF, keyId 0xFFFF, spKey 0xFFFF) = (true, 0x1FFF, 0x7FFF) := by decide

/-- Section 3.1 of the vectors, with the two decoders. -/
theorem test_position_fields :
    (rowOf 0x11, colF 0x11, rowOk 0x11, maskOf t1 0x11) = (1, 1, true, 0x01) ∧
    (rowOf 0x7F, colF 0x7F, rowOk 0x7F, maskOf t1 0x7F) = (7, 0xF, true, 0x80) ∧
    (rowOk 0x91, maskOf t1 0x91, maskOf t1 0x13, maskOf t1 0x10) = (false, 0x01, 0x03, 0x00) ∧
    (unmapped 0xFF, unmapped 0x7F, maskOf t1 0x1F) = (true, false, 0x80) ∧
    (maskOf { t1 with coldec := Config.coldecIndex } 0x11, maskOf { t1 with coldec := Config.coldecIndex } 0x17,
      maskOf { t1 with coldec := Config.coldecIndex } 0x10) = (0x02, 0x80, 0x01) := by decide

theorem test_select_modifiers :
    select t1 0b0000000000000110 = .shiftMk .left ∧ select t1 0b0000000000000111 = .shiftMk .right ∧
    select t1 0b1000000000000110 = .shiftBr .left ∧ select t1 0b1000000000000111 = .shiftBr .right ∧
    select t1 0b0000000000001000 = .ctrlMk .left ∧ select t1 0b0000000100001000 = .ctrlMk .right ∧
    select t1 0b1000000000001000 = .ctrlBr .left ∧ select t1 0b1000000100001000 = .ctrlBr .right ∧
    select t1 0b0000000000001010 = .altMk ∧ select t1 0b1000000100001010 = .altBr := by decide

theorem test_select_keys :
    select t1 0b0000000000011110 = .specialMk 0x001E ∧ select t1 0b0100000000011110 = .printMk 0x401E ∧
    select t1 0b0000000001000001 = .printMk 0x0041 ∧ select t1 0b1110000001000001 = .keyBr 0x0041 ∧
    select t1 0b1000000000011110 = .keyBr 0x001E := by decide

theorem test_decode_ports :
    decode .event 0xFFFF = .ok (.event 0xFFFF) ∧ decode .event 0x10000 = .error .codeTooWide ∧
    decode .read 0 = .ok (.rd 0) ∧ decode .read 15 = .ok (.rd 15) ∧ decode .read 16 = .error .rowTooWide ∧
    decode .reset 1 = .ok .rst ∧ decode .reset 0 = .error .resetInactive ∧ decode .reset 2 = .error .resetTooWide := by
  decide

theorem test_encode :
    encode t1 (.shiftMk .right) = some (.event, 0x0007) ∧ encode t1 (.ctrlBr .right) = some (.event, 0x8108) ∧
    encode t1 .altMk = some (.event, 0x000A) ∧ encode t1 (.keyBr 0x0041) = some (.event, 0x8041) ∧
    encode t1 (.specialMk 0x001E) = some (.event, 0x001E) ∧ encode t1 (.printMk 0x6041) = some (.event, 0x6041) ∧
    encode t1 (.rd 9) = some (.read, 9) ∧ encode t1 .rst = some (.reset, 1) ∧ encode t1 .count = none := by decide

theorem test_table_words :
    decodeTableWord 16 0x8041 = some (.event 0x8041) ∧ decodeTableWord 8 8 = some (.rd 8) ∧
    decodeTableWord 8 1 = some .rst ∧ decodeTableWord 4 1 = some (.rd 1) ∧ decodeTableWord 1 1 = some .rst ∧
    decodeTableWord 0 0 = none := by decide

/-- The trace notation of R93. -/
theorem test_trace_notation :
    Activity.mk 0x0041 true false = .event 0x4041 ∧ Activity.br 0x0041 true true = .event 0xE041 ∧
    Activity.tap 0x0020 = [.event 0x0020, .event 0x8020] := by decide

/-- The next step runs the word placed, as the first operation after reset. -/
theorem test_step_runs_word :
    step (State.reset.withFetchWord 8 8) = exec (.rd 8) State.reset ∧
    step (State.reset.withFetchWord 8 1) = exec .rst State.reset ∧
    step (State.reset.withFetchWord 16 0x0041) = exec (.event 0x0041) State.reset := ⟨rfl, rfl, rfl⟩

/-! ### One step each: the vectors of 95_test_vectors.md -/

/-- Section 3.2. -/
theorem test_lookup_ascii :
    lookupAscii t1 0x1F = none ∧ lookupAscii t1 0x20 = some 0x7F ∧ lookupAscii t1 0x7E = none ∧ lookupAscii t1 0x7F = none ∧
    lookupAscii t1 0x48 = some 0x28 ∧ lookupAscii t1 0x68 = some 0x28 ∧ lookupAscii t1 0x21 = some 0x41 ∧
    lookupAscii t1 0x26 = none := by decide

theorem test_exec_lookup_ascii :
    outOf (.lookupAscii 0x61) s0 = some { Output.silent with answer := .position (some 0x11) } := by decide

theorem test_lookup_special :
    lookupSpecial t1 0x001E = some 0x61 ∧ lookupSpecial t1 0x401E = none ∧ lookupSpecial t1 0x0029 = some 0xFF ∧
    lookupSpecial t1 0x0017 = none ∧ lookupSpecial t1 0x0117 = some 0x62 := by decide

theorem test_exec_lookup_special :
    outOf (.lookupSpecial 0x0029) s0 = some { Output.silent with answer := .position (some 0xFF) } := by decide

theorem test_lookup_mod :
    lookupMod t1 0x0006 = some .ls ∧ lookupMod t1 0x0007 = some .rs ∧ lookupMod t1 0x0008 = some .lc ∧
    lookupMod t1 0x0108 = some .rc ∧ lookupMod t1 0x000A = some .alt ∧ lookupMod t1 0x0106 = none := by decide

theorem test_exec_lookup_mod :
    outOf (.lookupMod 0x0108) s0 = some { Output.silent with answer := .line (some .rc) } := by decide

theorem test_lookup_ovr :
    lookupOvr t1 0x40 = 0b00 ∧ lookupOvr t2 0x40 = 0b10 ∧ lookupOvr t2 0x27 = 0b11 ∧ lookupOvr t2 0x41 = 0b00 ∧
    lookupOvr t2 0x7F = 0b00 ∧ lookupOvr t2 0x10 = 0b00 := by decide

theorem test_exec_lookup_ovr :
    outOf (.lookupOvr 0x27) (start t2 noRows noSlots 0) = some { Output.silent with answer := .override 0b11 } := by decide

theorem test_exec_sc2ascii :
    outOf (.sc2ascii 0x0032 true false) s0 =
      some { Output.silent with sc := some ⟨0x0032, true, false⟩, answer := .ascii (some 0x40) } ∧
    outOf (.sc2ascii 0x0032 true true) s0 =
      some { Output.silent with sc := some ⟨0x0032, true, true⟩, answer := .ascii none } := by decide

theorem test_exec_resolve :
    outOf (.resolve 0x0037) s0 =
      some { Output.silent with sc := some ⟨0x0037, false, false⟩, answer := .resolved (some (0x44, 0b00)) } ∧
    outOf (.resolve 0x001E) s0 = some { Output.silent with answer := .resolved (some (0x61, 0b00)) } := by decide

theorem test_exec_resolve_shifted :
    outOf (.resolve 0x4037) (start t1 noRows noSlots 1) =
      some { Output.silent with sc := some ⟨0x4037, true, false⟩, answer := .resolved none } := by decide

/-- Section 3.3: identity 0 is not present in a zero slot. -/
theorem test_exec_contains :
    outOf (.contains 0x0000) s0 = some { Output.silent with answer := .bit false } ∧
    outOf (.contains 0x0041) shiftA = some { Output.silent with answer := .bit true } := by decide

/-- Section 3.3: the lowest free slot, above a stale one. -/
theorem test_exec_add :
    after (.add 0x0043 0x14 0b10) (start t1 noRows #v[0x022041, 0x824042, 0, 0, 0, 0] 0) =
      some ⟨[0, 0, 0, 0, 0, 0, 0, 0], [0xC28043, 0x824042, 0, 0, 0, 0], 0, none⟩ := by decide

/-- Section 3.3: presence is tested before capacity. -/
theorem test_exec_add_full :
    outOf (.add 0x0043 0x14 0b00) full = some { Output.silent with answer := .add .present } ∧
    outOf (.add 0x0048 0x28 0b00) full = some { Output.silent with answer := .add .full } := by decide

/-- Section 3.3: not compacted, the freed slot keeps its other bits. -/
theorem test_exec_remove :
    (match exec (.remove 0x0041) (start t1 noRows #v[0x822041, 0x824042, 0, 0, 0, 0] 0) with
      | .next t => t.slots.toList.map slotWord
      | _ => []) = [0x022041, 0x824042, 0, 0, 0, 0] := by decide

theorem test_exec_remove_absent :
    outOf (.remove 0x0041) s0 = some { Output.silent with answer := .remove .absent } := by decide

theorem test_exec_count :
    outOf .count full = some { Output.silent with answer := .count 6 } ∧
    outOf .count shiftA = some { Output.silent with answer := .count 1 } := by decide

theorem test_exec_pks_clear :
    (match exec .pksClear full with | .next t => t.slots.toList.map slotWord | _ => []) = [0, 0, 0, 0, 0, 0] := by decide

/-- Section 3.4. -/
theorem test_exec_assert :
    after (.assertPos 0x18) (start t1 #v[1, 0, 0, 0, 0, 0, 0, 0] noSlots 0) =
      some ⟨[0x09, 0, 0, 0, 0, 0, 0, 0], [0, 0, 0, 0, 0, 0], 0, none⟩ ∧
    after (.assertPos 0x7F) s0 = some ⟨[0, 0, 0, 0, 0, 0, 0x80, 0], [0, 0, 0, 0, 0, 0], 0, none⟩ := by decide

theorem test_exec_assert_invalid_rows :
    after (.assertPos 0x91) s0 = some (viewOf s0) ∧ after (.assertPos 0x01) s0 = some (viewOf s0) ∧
    after (.assertPos 0xFF) s0 = some (viewOf s0) := by decide

/-- R171's example and section 3.4. -/
theorem test_exec_clear :
    after (.clearPos 0x11) (start t1 #v[3, 0, 0, 0, 0, 0, 0, 0] noSlots 0) =
      some ⟨[2, 0, 0, 0, 0, 0, 0, 0], [0, 0, 0, 0, 0, 0], 0, none⟩ ∧
    after (.clearPos 0x12) (start t1 #v[8, 0, 0, 0, 0, 0, 0, 0] noSlots 0) =
      some ⟨[8, 0, 0, 0, 0, 0, 0, 0], [0, 0, 0, 0, 0, 0], 0, none⟩ := by decide

/-- Section 3.4: rows 0, 9 and 15 read zero. -/
theorem test_exec_rd :
    ([1, 7, 8, 0, 9, 15] : List RowNum).map (fun r => (outOf (.rd r) (start t1 #v[8, 0, 0, 0, 0, 0, 0x80, 0] noSlots 0)).bind
      (·.rdData)) = [some 0x08, some 0x80, some 0x00, some 0x00, some 0x00, some 0x00] := by decide

theorem test_exec_clear_all :
    after .clearAll shiftA = some ⟨[0, 0, 0, 0, 0, 0, 0, 0], [0x822041, 0, 0, 0, 0, 0], 1, none⟩ := by decide

/-- Section 3.4: the right shift key and three keys, from a matrix that shows none of them. -/
theorem test_exec_rebuild :
    after .rebuild (start t1 #v[0x40, 0, 0, 0, 0, 0, 0, 0] #v[0x822041, 0, 0x842045, 0x8FE020, 0, 0] 2) =
      some ⟨[1, 1, 0, 0, 0, 0, 0x80, 1], [0x822041, 0, 0x842045, 0x8FE020, 0, 0], 2, none⟩ ∧
    after .rebuild (start t1 noRows #v[0x92205A, 0, 0, 0, 0, 0] 0) =
      some ⟨[0, 0, 0, 0, 0, 0, 0, 0], [0x92205A, 0, 0, 0, 0, 0], 0, none⟩ := by decide

/-- Section 3.5: the second shift key, then the break of the first. -/
theorem test_exec_shift_mk :
    after (.shiftMk .right) (start t1 #v[0, 0, 0, 0, 0, 0, 0, 1] noSlots 1) =
      some ⟨[0, 0, 0, 0, 0, 0, 0, 1], [0, 0, 0, 0, 0, 0], 3, some 0⟩ := by decide

theorem test_exec_shift_br :
    after (.shiftBr .left) (start t1 #v[0, 0, 0, 0, 0, 0, 0, 1] noSlots 3) =
      some ⟨[0, 0, 0, 0, 0, 0, 0, 1], [0, 0, 0, 0, 0, 0], 2, some 0⟩ ∧
    after (.shiftBr .right) (start t1 #v[0, 0, 0, 0, 0, 0, 0, 1] noSlots 2) =
      some ⟨[0, 0, 0, 0, 0, 0, 0, 0], [0, 0, 0, 0, 0, 0], 0, some 0⟩ := by decide

/-- Section 3.5: control and alt. -/
theorem test_exec_ctrl :
    after (.ctrlMk .left) shiftA = some { viewOf shiftA with mod := 5, st := some 0 } ∧
    after (.ctrlMk .right) shiftA = some { viewOf shiftA with mod := 9, st := some 0 } ∧
    after (.ctrlBr .left) (start t1 noRows noSlots 12) = some ⟨[0, 0, 0, 0, 0, 0, 0, 0], [0, 0, 0, 0, 0, 0], 8, some 0⟩ ∧
    after (.ctrlBr .right) (start t1 noRows noSlots 12) = some ⟨[0, 0, 0, 0, 0, 0, 0, 0], [0, 0, 0, 0, 0, 0], 4, some 0⟩ := by
  decide

theorem test_exec_alt :
    after .altMk shiftA = some { viewOf shiftA with st := some 0 } ∧
    after .altBr shiftA = some { viewOf shiftA with st := some 0 } := by decide

/-- R146's example; ESC is special and unmapped. -/
theorem test_exec_special_mk :
    after (.specialMk 0x001E) s0 = some ⟨[0, 0, 0, 0, 0, 1, 0, 0], [0x8C201E, 0, 0, 0, 0, 0], 0, some 1⟩ ∧
    after (.specialMk 0x0029) s0 = some { viewOf s0 with st := some 4 } := by decide

theorem test_exec_special_mk_full :
    after (.specialMk 0x001E) full = some { viewOf full with st := some 5 } := by decide

/-- R147's example, and section 3.6: UNMAPPED is decided before DUPLICATE. -/
theorem test_exec_print_mk :
    after (.printMk 0x4041) (start t1 #v[0, 0, 0, 0, 0, 0, 0, 1] noSlots 1) =
      some ⟨[1, 0, 0, 0, 0, 0, 0, 1], [0x822041, 0, 0, 0, 0, 0], 1, some 1⟩ ∧
    after (.printMk 0x4037) (start t1 #v[0, 0, 0, 4, 0, 0, 0, 1] #v[0x888037, 0, 0, 0, 0, 0] 1) =
      some ⟨[0, 0, 0, 4, 0, 0, 0, 1], [0x888037, 0, 0, 0, 0, 0], 1, some 4⟩ := by decide

/-- R152's example with T2's `@`; T1R's Z at the invalid row 9. -/
theorem test_exec_print_mk_override :
    after (.printMk 0x4032) (start t2 #v[0, 0, 0, 0, 0, 0, 0, 1] noSlots 1) =
      some ⟨[0, 0, 1, 0, 0, 0, 0, 0], [0xC62032, 0, 0, 0, 0, 0], 1, some 1⟩ ∧
    after (.printMk 0x005A) (start t1r noRows noSlots 0) =
      some ⟨[0, 0, 0, 0, 0, 0, 0, 0], [0x92205A, 0, 0, 0, 0, 0], 0, some 7⟩ := by decide

/-- R148's example; the break of a key that is not held. -/
theorem test_exec_key_br :
    after (.keyBr 0x0041) shiftA = some ⟨[0, 0, 0, 0, 0, 0, 0, 1], [0, 0, 0, 0, 0, 0], 1, some 2⟩ ∧
    after (.keyBr 0x0055) shiftA = some { viewOf shiftA with st := some 6 } := by decide

/-- Two keys at one position: the bit stays until the last is released. -/
theorem test_exec_key_br_shared :
    after (.keyBr 0x0037) (start t1 #v[0, 0, 0, 4, 0, 0, 0, 0] #v[0x888037, 0x888027, 0, 0, 0, 0] 0) =
      some ⟨[0, 0, 0, 4, 0, 0, 0, 0], [0, 0x888027, 0, 0, 0, 0], 0, some 2⟩ := by decide

/-- Sections 3.5 and 3.6: the context flags of a modifier's code are ignored; an auto-repeat is a duplicate. -/
theorem test_exec_event :
    after (.event 0x6006) s0 = some ⟨[0, 0, 0, 0, 0, 0, 0, 1], [0, 0, 0, 0, 0, 0], 1, some 0⟩ ∧
    after (.event 0x4041) shiftA = some { viewOf shiftA with st := some 3 } := by decide

theorem test_exec_event_full :
    after (.event 0x0047) full = some { viewOf full with st := some 5 } ∧
    after (.event 0x8047) full = some { viewOf full with st := some 6 } := by decide

theorem test_exec_rst :
    after .rst full = some ⟨[0, 0, 0, 0, 0, 0, 0, 0], [0, 0, 0, 0, 0, 0], 0, none⟩ ∧
    viewOf State.reset = ⟨[0, 0, 0, 0, 0, 0, 0, 0], [0, 0, 0, 0, 0, 0], 0, none⟩ := by decide

/-! ### The hypotheses of the obligations can be met: one case for each, and for each clause -/

theorem shiftA_mirrors : shiftA.Mirrors := by unfold State.Mirrors; decide

theorem full_mirrors : full.Mirrors := by unfold State.Mirrors; decide

theorem s0_mirrors : s0.Mirrors := by unfold State.Mirrors; decide

theorem full_distinct : Distinct full.slots := by unfold Distinct; decide

theorem full_full : Full full.slots := by unfold Full; decide

/-- The invariant holds in a state with a key held. -/
theorem shiftA_inv : shiftA.Inv where
  mirrors := shiftA_mirrors
  distinct := by unfold Distinct; decide
  noModifier := by decide
  fromTables := by decide
  ovrLegal := by decide

theorem test_meets_SampleWordsDecode :
    ({ t1 with romMod := [0x0006, 0x2007, 0x4008, 0x6108, 0x800A, 0xE10A], romSpecial := [0x001E61, 0x0029FF] } : Keymap).romMod =
      [0x0006, 0x2007, 0x4008, 0x6108, 0x800A, 0xE10A] ∧
    ({ t1 with romSpecial := [0x001E61, 0x0029FF] } : Keymap).romSpecial = [0x001E61, 0x0029FF] := ⟨rfl, rfl⟩

theorem test_meets_SelectionFollowsTable :
    lookupMod t1 (keyId 0x0006) = some (shiftLine .left) ∧ lookupMod t1 (keyId 0x8007) = some (shiftLine .right) ∧
    lookupMod t1 (keyId 0x0008) = some (ctrlLine .left) ∧ lookupMod t1 (keyId 0x8108) = some (ctrlLine .right) ∧
    lookupMod t1 (keyId 0x010A) = some .alt ∧
    (lookupMod t1 (keyId 0x801E) = none ∧ rel 0x801E = true) ∧
    (lookupMod t1 (keyId 0x001E) = none ∧ rel 0x001E = false ∧ (lookupSpecial t1 (spKey 0x001E)).isSome = true) ∧
    (lookupMod t1 (keyId 0x401E) = none ∧ rel 0x401E = false ∧ lookupSpecial t1 (spKey 0x401E) = none) := by decide

theorem test_meets_DecodeOfEncode :
    ([.shiftMk .left, .shiftBr .right, .ctrlMk .left, .ctrlBr .right, .altMk, .altBr, .specialMk 0x001E, .printMk 0x0041,
      .keyBr 0x1FFF, .event 0xFFFF, .rd 15, .rst] : List Instr).all (fun i => i.wf t1 && !i.internal) = true := by decide

theorem test_meets_StepRunsDecodedInstruction :
    (s0.setInputs [.reset (some 0x0041)]).inputs = .reset (some 0x0041) :: [] ∧ s0.inputs = [] := ⟨rfl, rfl⟩

theorem test_meets_ResetDiscardsSimultaneousEvent :
    (s0.setInputs [.reset (some 0x0041), .read 1]).inputs = .reset (some 0x0041) :: [.read 1] := rfl

theorem test_meets_ReadSeesCompletedEvent :
    (s0.setInputs [.event 0x0006, .read 8]).inputs = .event 0x0006 :: .read 8 :: [] := rfl

/-- For TablesNeverChange: an operation and a step have a next state. -/
theorem test_meets_next :
    exec (.event 0x0041) s0 = .next (runEvent 0x0041 s0) ∧ step s0 = .next (s0.setOut Output.silent) := ⟨rfl, rfl⟩

theorem test_meets_LookupAsciiAnswer :
    (0x1F#8).toNat < 0x20 ∧ 0x7E < (0x7F#8).toNat ∧
    (∃ _ : 0x20 ≤ (0x7E#8).toNat ∧ (0x7E#8).toNat ≤ 0x7E, t1.romAscii[(0x7E#8).toNat - 0x20] = 0xFF#8) ∧
    (∃ _ : 0x20 ≤ (0x20#8).toNat ∧ (0x20#8).toNat ≤ 0x7E, t1.romAscii[(0x20#8).toNat - 0x20] ≠ 0xFF#8) ∧
    t1.wfLetters = true ∧ 0x41 ≤ (0x5A#8).toNat ∧ (0x5A#8).toNat ≤ 0x5A := by decide

theorem test_meets_LookupSpecialAnswer :
    t1.romSpecial = romSpecialT1 ∧
    (∃ h : 4 < romSpecialT1.length, (romSpecialT1[4]'h).extractLsb' 8 15 = 0x0029#15 ∧
      ∀ (j : Nat) (hj : j < 4), (romSpecialT1[j]'(Nat.lt_trans hj h)).extractLsb' 8 15 ≠ 0x0029#15) ∧
    (∀ e ∈ romSpecialT1, e.extractLsb' 8 15 ≠ 0x401E#15) := ⟨rfl, by decide, by simp [romSpecialT1]⟩

theorem test_meets_LookupModAnswer :
    t1.romMod = romModT1 ∧
    (∃ h : 5 < romModT1.length, (romModT1[5]'h).extractLsb' 0 13 = 0x010A#13 ∧
      (∀ (j : Nat) (hj : j < 5), (romModT1[j]'(Nat.lt_trans hj h)).extractLsb' 0 13 ≠ 0x010A#13) ∧
      4 ≤ ((romModT1[5]'h).extractLsb' 13 3).toNat) ∧
    (romModT1.map fun e => e.extractLsb' 13 3) = [0, 1, 2, 3, 4, 4] ∧
    (∀ e ∈ romModT1, e.extractLsb' 0 13 ≠ 0x0041#13) := ⟨rfl, by decide, by decide, by simp [romModT1]⟩

theorem test_meets_LookupOvrAnswer :
    (0x1F#8).toNat < 0x20 ∧ 0x7E < (0x7F#8).toNat ∧
    (∃ _ : 0x20 ≤ (0x40#8).toNat ∧ (0x40#8).toNat ≤ 0x7E, t2.romOvr[(0x40#8).toNat - 0x20] = 0b10#2) ∧
    (∃ _ : 0x20 ≤ (0x27#8).toNat ∧ (0x27#8).toNat ≤ 0x7E, t2.romOvr[(0x27#8).toNat - 0x20] = 0b11#2) ∧
    (∃ _ : 0x20 ≤ (0x7E#8).toNat ∧ (0x7E#8).toNat ≤ 0x7E, t2.romOvr[(0x7E#8).toNat - 0x20] = 0b00#2) ∧
    (∃ _ : 0x20 ≤ (0x20#8).toNat ∧ (0x20#8).toNat ≤ 0x7E,
      ({ t1 with romOvr := Config.romOvrDefault.set 0 0b01 } : Keymap).romOvr[(0x20#8).toNat - 0x20] = 0b01#2) := by decide

theorem test_meets_Sc2asciiAnswer :
    let l : List (ScQuery × Byte) := [(⟨0x0041, false, false⟩, 0x61), (⟨0x0041, true, false⟩, 0x41)]
    ({ t1 with sc2ascii := l } : Keymap).sc2ascii = l ∧
    (∃ h : 1 < l.length, (l[1]'h).1 = ⟨0x0041, true, false⟩ ∧
      ∀ (j : Nat) (hj : j < 1), (l[j]'(Nat.lt_trans hj h)).1 ≠ ⟨0x0041, true, false⟩) ∧
    (∀ e ∈ l, e.1 ≠ ⟨0x0041, false, true⟩) := ⟨rfl, by decide⟩

theorem test_meets_ResolveAnswer :
    lookupSpecial t1 (spKey 0x0029) = some 0xFF#8 ∧ (lookupSpecial t1 (spKey 0x001E) = some 0x61 ∧ (0x61 : Position) ≠ 0xFF#8) ∧
    (lookupSpecial t1 (spKey 0x0055) = none ∧ sc2ascii t1 ⟨spKey 0x0055, false, false⟩ = none) ∧
    (lookupSpecial t1 (spKey 0x007F) = none ∧ sc2ascii t1 ⟨spKey 0x007F, false, false⟩ = some 0x7F ∧
      lookupAscii t1 0x7F = none) ∧
    (lookupSpecial t1 (spKey 0x0041) = none ∧ sc2ascii t1 ⟨spKey 0x0041, false, false⟩ = some 0x61 ∧
      lookupAscii t1 0x61 = some 0x11) := by decide

theorem test_meets_ContainsAnswer :
    (∃ i : Fin 6, (slot shiftA.slots i).v = true ∧ (slot shiftA.slots i).id = 0x0041) ∧
    (∀ i : Fin 6, (slot shiftA.slots i).v = true → (slot shiftA.slots i).id ≠ 0x0042) := by decide

theorem test_meets_AddAnswerAndSlots :
    Held full.slots 0x0041 ∧ (¬Held full.slots 0x0047 ∧ Full full.slots) ∧
    (¬Held shiftA.slots 0x0042 ∧ LowestFree shiftA.slots 1) ∧ LowestFree s0.slots 0 := by
  unfold Held Full LowestFree; decide

theorem test_meets_RemoveAnswerAndSlots :
    (Distinct full.slots ∧ (slot full.slots 5).v = true ∧ (slot full.slots 5).id = 0x0046) ∧ ¬Held full.slots 0x0047 := by
  unfold Distinct Held; decide

/-- For AssertOrsMaskIntoRow, ClearClearsMaskInRow and ReadReturnsRow: rows 1 and 8, and their neighbours 0, 9 and 15. -/
theorem test_meets_rows :
    (1 ≤ (rowOf 0x11).toNat ∧ (rowOf 0x11).toNat ≤ 8) ∧ (1 ≤ (rowOf 0x81).toNat ∧ (rowOf 0x81).toNat ≤ 8) ∧
    ¬(1 ≤ (rowOf 0x01).toNat ∧ (rowOf 0x01).toNat ≤ 8) ∧ ¬(1 ≤ (rowOf 0x91).toNat ∧ (rowOf 0x91).toNat ≤ 8) ∧
    ¬(1 ≤ (rowOf 0xFF).toNat ∧ (rowOf 0xFF).toNat ≤ 8) ∧ (2 : RowNum) ≠ rowOf 0x11 ∧
    (1 ≤ (1 : RowNum).toNat ∧ (8 : RowNum).toNat ≤ 8) ∧ ¬1 ≤ (0 : RowNum).toNat ∧ ¬(9 : RowNum).toNat ≤ 8 := by decide

/-- RebuildSetsExactlyTheHeldBits: a bit of each kind. -/
theorem test_meets_RebuildSetsExactlyTheHeldBits :
    KeyPlace t1 (slot shiftA.slots 0).pos 1 0 ∧ shiftEff shiftA.slots shiftA.mod = true ∧ ShiftPlace t1 8 0 := by
  unfold KeyPlace ShiftPlace; decide

theorem test_meets_SpaceAssertsOnlyItsMask :
    (colF 0x7F = 0xF ∧ (0x7F : Position) ≠ 0xFF ∧ 1 ≤ (rowOf 0x7F).toNat ∧ (rowOf 0x7F).toNat ≤ 8) ∧
    (colF 0x1F = 0xF ∧ colF 0x8F = 0xF ∧ 1 ≤ (rowOf 0x1F).toNat ∧ (rowOf 0x8F).toNat ≤ 8) ∧ s0.keymap.wf = true ∧
    s0.Mirrors ∧ s0.keymap.romAscii[0] = 0x7F ∧ lookupOvr s0.keymap 0x20 = 0 ∧ KeyMake s0.keymap 0x0020 ∧
    lookupSpecial s0.keymap (spKey 0x0020) = none ∧ sc2ascii s0.keymap (s0.query 0x0020) = some 0x20 ∧
    ¬Held s0.slots (keyId 0x0020) ∧ ¬Full s0.slots ∧ keyId 0xC020 = keyId 0x0020 ∧ rel 0xC020 = true := by
  unfold State.Mirrors KeyMake Held Full; decide

theorem test_meets_EventDispatch :
    lookupMod s0.keymap (keyId 0x0006) = some (shiftLine .left) ∧ lookupMod s0.keymap (keyId 0x8108) = some (ctrlLine .right) ∧
    lookupMod s0.keymap (keyId 0x000A) = some .alt ∧ (lookupMod s0.keymap (keyId 0x8041) = none ∧ rel 0x8041 = true) ∧
    (lookupMod s0.keymap (keyId 0x001E) = none ∧ rel 0x001E = false ∧ (lookupSpecial s0.keymap (spKey 0x001E)).isSome = true) ∧
    (lookupMod s0.keymap (keyId 0x0041) = none ∧ rel 0x0041 = false ∧ lookupSpecial s0.keymap (spKey 0x0041) = none) := by
  decide

/-- For ShiftMakeSetsItsBit and ShiftBreakClearsItsBit: a mirroring state, a bit of the SHIFT place and one outside it, the
other shift key down, a key that forces 1. -/
theorem test_meets_ShiftKeys :
    shiftA.Mirrors ∧ ShiftPlace shiftA.keymap 8 0 ∧ ¬ShiftPlace shiftA.keymap 1 0 ∧
    (shiftA.mod.getLsbD 0 = true ∧ force0 shiftA.slots = false) ∧
    force1 (start t2 #v[0, 0, 0, 4, 0, 0, 0, 1] #v[0xE88027, 0, 0, 0, 0, 0] 0).slots = true := by
  unfold State.Mirrors ShiftPlace; decide

theorem test_meets_SpecialMakeOutcomes :
    lookupSpecial s0.keymap (spKey 0x0029) = some 0xFF ∧
    (lookupSpecial s0.keymap (spKey 0x001E) = some 0x61 ∧ (0x61 : Position) ≠ 0xFF ∧ ¬Held s0.slots (keyId 0x001E) ∧
      LowestFree s0.slots 0 ∧ s0.Mirrors) ∧
    Held (start t1 noRows #v[0x8C201E, 0, 0, 0, 0, 0] 0).slots (keyId 0x001E) ∧
    (¬Held full.slots (keyId 0x001E) ∧ Full full.slots) := by
  unfold State.Mirrors Held Full LowestFree; decide

theorem test_meets_PrintMakeOutcomes :
    sc2ascii s0.keymap (s0.query 0x0055) = none ∧
    (sc2ascii s0.keymap (s0.query 0x007F) = some 0x7F ∧ lookupAscii s0.keymap 0x7F = none) ∧
    (sc2ascii s0.keymap (s0.query 0x0047) = some 0x67 ∧ lookupAscii s0.keymap 0x67 = some 0x24 ∧
      ¬Held s0.slots (keyId 0x0047) ∧ LowestFree s0.slots 0 ∧ s0.Mirrors ∧ ¬ShiftPlace s0.keymap 2 2) ∧
    (¬Held full.slots (keyId 0x0047) ∧ Full full.slots) ∧
    (sc2ascii full.keymap (full.query 0x0041) = some 0x61 ∧ lookupAscii full.keymap 0x61 = some 0x11 ∧
      Held full.slots (keyId 0x0041)) := by
  unfold State.Mirrors Held Full LowestFree ShiftPlace; decide

theorem test_meets_KeyBreakOutcomes :
    ¬Held full.slots 0x0047 ∧
    (Distinct full.slots ∧ (slot full.slots 0).v = true ∧ (slot full.slots 0).id = 0x0041) ∧ full.Mirrors ∧
    (¬KeyPlace full.keymap (slot full.slots 0).pos 1 1 ∧ ¬ShiftPlace full.keymap 1 1) ∧
    (let s := start t1 #v[0, 0, 0, 4, 0, 0, 0, 0] #v[0x888037, 0x888027, 0, 0, 0, 0] 0;
      Distinct s.slots ∧ (slot s.slots 0).v = true ∧ (slot s.slots 0).id = 0x0037 ∧ (slot s.slots 1).v = true ∧
      rowOf (slot s.slots 1).pos = rowOf (slot s.slots 0).pos ∧
      maskOf s.keymap (slot s.slots 1).pos = maskOf s.keymap (slot s.slots 0).pos ∧
      KeyPlace s.keymap (slot s.slots 0).pos 4 2) := by
  unfold State.Mirrors Distinct Held KeyPlace ShiftPlace; decide

/-- UnmappedMakeIsDropped: each of the four causes. -/
theorem test_meets_UnmappedMakeIsDropped :
    (KeyMake s0.keymap 0x0029 ∧ s0.resolution 0x0029 = none) ∧ (KeyMake s0.keymap 0x0055 ∧ s0.resolution 0x0055 = none) ∧
    (KeyMake s0.keymap 0x007F ∧ s0.resolution 0x007F = none) ∧ (KeyMake s0.keymap 0x0009 ∧ s0.resolution 0x0009 = none) ∧
    (KeyMake shiftA.keymap 0x4037 ∧ shiftA.resolution 0x4037 = none) := by
  unfold KeyMake; decide

theorem test_meets_DuplicateMakeIsDropped :
    KeyMake shiftA.keymap 0x4041 ∧ Held shiftA.slots (keyId 0x4041) ∧ (shiftA.resolution 0x4041).isSome = true := by
  unfold KeyMake Held; decide

theorem test_meets_SeventhKeyIsDropped :
    KeyMake full.keymap 0x0047 ∧ Full full.slots ∧ ¬Held full.slots (keyId 0x0047) ∧
    (full.resolution 0x0047).isSome = true ∧ keyId 0x8047 = keyId 0x0047 ∧ rel 0x8047 = true ∧ Distinct full.slots := by
  unfold KeyMake Full Held Distinct; decide

/-- SeventhKeyIsDropped, after the release of one of the six: a new make brings the seventh key in. -/
theorem test_meets_SeventhKeyIsDropped_release :
    let u := keyBreak (slot full.slots 2).id (runEvent 0x0047 full)
    exec (.event 0x0047) full = .next (runEvent 0x0047 full) ∧
    exec (.keyBr (slot full.slots 2).id) (runEvent 0x0047 full) = .next u ∧
    exec (.event 0x6047) u = .next (runEvent 0x6047 u) ∧ Held (runEvent 0x6047 u).slots (keyId 0x0047) :=
  ⟨rfl, rfl, rfl, by unfold Held; decide⟩

theorem test_meets_PressThenReleaseRestores :
    shiftA.Mirrors ∧ KeyMake shiftA.keymap 0x4042 ∧ ¬Held shiftA.slots (keyId 0x4042) ∧ keyId 0xE042 = keyId 0x4042 ∧
    rel 0xE042 = true := by
  unfold State.Mirrors KeyMake Held; decide

/-- HeldKeyLeavesOnlyByItsBreak: a held key and its break on the port. -/
theorem test_meets_HeldKeyLeavesOnlyByItsBreak :
    (shiftA.setInputs [.event 0x8041]).inputs = .event 0x8041 :: [] ∧
    (∃ t, step (shiftA.setInputs [.event 0x8041]) = .next t) ∧ (slot shiftA.slots 0).v = true := ⟨rfl, ⟨_, rfl⟩, by decide⟩

theorem test_meets_ContextFlagsIgnored :
    (keyId 0x0006 = keyId 0x6006 ∧ rel 0x0006 = rel 0x6006 ∧ (lookupMod t1 (keyId 0x0006)).isSome = true) ∧
    (keyId 0x8041 = keyId 0xE041 ∧ rel 0x8041 = rel 0xE041 ∧ rel 0x8041 = true) := by decide

theorem test_meets_ModBitChangesOnlyByItsKey :
    exec (.event 0x0007) shiftA = .next (runEvent 0x0007 shiftA) ∧
    (runEvent 0x0007 shiftA).mod.getLsbD 1 ≠ shiftA.mod.getLsbD 1 := ⟨rfl, by decide⟩

theorem test_meets_CollaboratorAskedOnlyForPrintables :
    (KeyMake s0.keymap 0x0041 ∧ lookupSpecial s0.keymap (spKey 0x0041) = none) ∧
    ¬(KeyMake s0.keymap 0x0006 ∧ lookupSpecial s0.keymap (spKey 0x0006) = none) := by
  unfold KeyMake; decide

theorem test_meets_BreakAfterResetIsNotHeld :
    exec .rst full = .next (resetOp full) ∧ lookupMod full.keymap (keyId 0x8041) = none ∧ rel 0x8041 = true :=
  ⟨rfl, by decide, by decide⟩

theorem test_meets_StepKeepsInvariant : shiftA.Inv ∧ ∃ t, step shiftA = .next t := ⟨shiftA_inv, _, rfl⟩

theorem test_meets_AllKeysUpMeansRowsZero :
    (start t1 noRows noSlots 0x8).Inv ∧ (start t1 noRows noSlots 0x8).AllUp := by
  refine ⟨⟨?_, ?_, by decide, by decide, by decide⟩, by decide, by decide⟩
  · unfold State.Mirrors; decide
  · unfold Distinct; decide

/-- OverrideForcesShiftBit: a key that forces 1, one that forces 0 with a shift key down, and none. -/
theorem test_meets_OverrideForcesShiftBit :
    (t2.wfPositions = true ∧ t2.wfShiftPos = true ∧ t2.wfSpaceMask = true) ∧
    (start t2 #v[0, 0, 0, 4, 0, 0, 0, 1] #v[0xE88027, 0, 0, 0, 0, 0] 0).Inv ∧
    (start t2 #v[0, 0, 1, 0, 0, 0, 0, 0] #v[0xC62032, 0, 0, 0, 0, 0] 1).Inv ∧ shiftA.Inv ∧
    ((slot (start t2 #v[0, 0, 0, 4, 0, 0, 0, 1] #v[0xE88027, 0, 0, 0, 0, 0] 0).slots 0).ovr = 0b11 ∧
      (slot (start t2 #v[0, 0, 1, 0, 0, 0, 0, 0] #v[0xC62032, 0, 0, 0, 0, 0] 1).slots 0).ovr = 0b10 ∧
      ∀ i : Fin 6, (slot shiftA.slots i).v = true → (slot shiftA.slots i).ovr ≠ 0b10 ∧ (slot shiftA.slots i).ovr ≠ 0b11) := by
  refine ⟨by decide, ⟨?_, ?_, by decide, by decide, by decide⟩, ⟨?_, ?_, by decide, by decide, by decide⟩, shiftA_inv, by decide⟩
  all_goals first | (unfold State.Mirrors; decide) | (unfold Distinct; decide)

theorem test_meets_IncrementalEqualsRebuild :
    shiftA.Inv ∧ t1.wfPositions = true ∧ t1.wfShiftPos = true ∧ t1.wfSpaceMask = true ∧
    exec (.event 0x8041) shiftA = .next (runEvent 0x8041 shiftA) :=
  ⟨shiftA_inv, by decide, by decide, by decide, rfl⟩

/-- SlotPlacementUnobservable: the same two keys in other slots, with stale bits in a free one. -/
theorem test_meets_SlotPlacementUnobservable :
    SameSet (start t1 #v[3, 0, 0, 0, 0, 0, 0, 0] #v[0x822041, 0x824042, 0, 0, 0, 0] 0)
      (start t1 #v[3, 0, 0, 0, 0, 0, 0, 0] #v[0x022041, 0x824042, 0, 0, 0, 0x822041] 0) ∧
    Distinct (start t1 #v[3, 0, 0, 0, 0, 0, 0, 0] #v[0x822041, 0x824042, 0, 0, 0, 0] 0).slots ∧
    Distinct (start t1 #v[3, 0, 0, 0, 0, 0, 0, 0] #v[0x022041, 0x824042, 0, 0, 0, 0x822041] 0).slots := by
  refine ⟨⟨by decide, rfl, rfl, rfl, rfl, rfl⟩, ?_, ?_⟩ <;> (unfold Distinct; decide)

/-- OperationFrames: a next state for each shape, slots that the searches leave out, and each cause of no change. -/
theorem test_meets_OperationFrames :
    (exec (.specialMk 0x001E) shiftA = .next (specialMake 0x001E shiftA) ∧
      exec (.printMk 0x0042) shiftA = .next (printMake 0x0042 shiftA) ∧
      exec (.keyBr 0x0041) shiftA = .next (keyBreak 0x0041 shiftA)) ∧
    (findFree shiftA.slots = some 1 ∧ findFree shiftA.slots ≠ some 0 ∧ findHeld shiftA.slots 0x0041 = some 0 ∧
      findHeld shiftA.slots 0x0041 ≠ some 1) ∧
    (findFree full.slots = none ∧ findHeld full.slots 0x0047 = none ∧ Held full.slots 0x0041) ∧
    (lookupSpecial t1 (spKey 0x0041) = none ∧ lookupSpecial t1 (spKey 0x0029) = some 0xFF) ∧
    (sc2ascii t1 (s0.query 0x0055) = none ∧ sc2ascii t1 (s0.query 0x007F) = some 0x7F ∧ lookupAscii t1 0x7F = none) ∧
    (rowOk 0x91 = false ∧ rowOk 0x01 = false ∧ (2 : RowNum) ≠ rowOf 0x11) ∧
    (lookupMod t1 (keyId 0x0041) = none ∧ (lookupMod t1 (keyId 0x0006)).isSome = true) := by
  refine ⟨⟨rfl, rfl, rfl⟩, by decide, ?_, by decide⟩
  unfold Held
  decide

theorem test_meets_KeyEntersOnlyByItsMake :
    let s := shiftA.setInputs [.event 0x4042]
    s.inputs = .event 0x4042 :: [] ∧ step s = .next (runEvent 0x4042 (s.setInputs [])) ∧ ¬Held s.slots 0x0042 ∧
    Held (runEvent 0x4042 (s.setInputs [])).slots 0x0042 := by
  refine ⟨rfl, rfl, ?_, ?_⟩ <;> (unfold Held; decide)

end Sys2Proof.Tests
end

section
/-! What LOOKUP_ASCII answers (40_keymap_tables.md R110): outside the table's range, inside it, and for the two cases of a
letter under clause (c) of WF_ROM (00_scope.md R6). -/

namespace Sys2Proof.Machine

section LookupAscii

variable {K : Keymap} {a : Byte}

theorem unmapped_iff {p : Position} : unmapped p = true ↔ p = 0xFF#8 := beq_iff_eq

theorem lookupAscii_of_out_of_range (h : a.toNat < 0x20 ∨ 0x7E < a.toNat) : lookupAscii K a = none :=
  dif_neg (by omega)

theorem lookupAscii_of_in_range (h : 0x20 ≤ a.toNat ∧ a.toNat ≤ 0x7E) :
    lookupAscii K a =
      if K.romAscii[a.toNat - 0x20] = 0xFF#8 then none else some K.romAscii[a.toNat - 0x20] := by
  simp only [lookupAscii, dif_pos h, unmapped_iff]

/-- Clause (c) of WF_ROM (R6) at the entry of an upper-case letter: the lower case stands 0x20 entries above. -/
theorem romAscii_upper_eq_lower (hK : K.wfLetters = true) {i : Nat} (h1 : 0x41 - 0x20 ≤ i) (h2 : i ≤ 0x5A - 0x20) :
    K.romAscii[i] = K.romAscii[i + 0x20] := by
  obtain ⟨n, rfl⟩ := Nat.exists_eq_add_of_le h1
  have hn : K.romAscii[0x41 - 0x20 + n] = K.romAscii[0x61 - 0x20 + n] :=
    beq_iff_eq.1 (List.all_eq_true.1 hK ⟨n, by omega⟩ (List.mem_finRange _))
  have hidx : 0x61 - 0x20 + n = 0x41 - 0x20 + n + 0x20 := by omega
  simpa only [hidx] using hn

/-- The lower case of a letter lies 0x20 above its upper case. -/
theorem toNat_add_0x20_of_upper (ha : a.toNat ≤ 0x5A) : (a + 0x20).toNat = a.toNat + 0x20 :=
  BitVec.toNat_add_of_lt (by simp; omega)

theorem lookupAscii_lower_eq_upper (hK : K.wfLetters = true) (h1 : 0x41 ≤ a.toNat) (h2 : a.toNat ≤ 0x5A) :
    lookupAscii K (a + 0x20) = lookupAscii K a := by
  have hlow : (a + 0x20).toNat = a.toNat + 0x20 := toNat_add_0x20_of_upper h2
  have hidx : (a + 0x20).toNat - 0x20 = a.toNat - 0x20 + 0x20 := by omega
  rw [lookupAscii_of_in_range (a := a) (by omega), lookupAscii_of_in_range (a := a + 0x20) (by omega)]
  simp only [hidx, romAscii_upper_eq_lower hK (i := a.toNat - 0x20) (by omega) (by omega)]

end LookupAscii

/-- Settles O11: `exec` answers `lookupAscii`, which is read off by range, by the entry, and by the case of a letter. -/
theorem lookupAsciiAnswer : Obligations.LookupAsciiAnswer := by
  intro s a
  simp only [exec_lookupAscii]
  refine ⟨fun hout => ?_, fun hin => ⟨fun hff => ?_, fun hff => ?_⟩, fun hK h1 h2 => ?_⟩
  · rw [lookupAscii_of_out_of_range hout]
  · rw [lookupAscii_of_in_range hin, if_pos hff]
  · rw [lookupAscii_of_in_range hin, if_neg hff]
  · rw [lookupAscii_lower_eq_upper hK h1 h2]

end Sys2Proof.Machine
end

section
/-! The Pressed-Key Set (41_pressed_key_set.md): CONTAINS, REMOVE, COUNT and PKS_CLEAR (R130, R132 to R134). -/

namespace Sys2Proof.Machine

section PressedKeys

variable {sl : Slots} {id : KeyId} {i : Fin 6}

/-! ### REMOVE -/

theorem pksRemove_of_held (hd : Distinct sl) (hv : (slot sl i).v = true) (hi : (slot sl i).id = id) :
    pksRemove sl id = (.removed, setSlot sl i (freed (slot sl i))) := by
  obtain ⟨habs, _⟩ | ⟨j, hvj, hj, hrem⟩ := pksRemove_cases sl id
  · exact absurd hi (habs i hv)
  · have hji : j = i := hd j i hvj hv (hj.trans hi.symm)
    rw [hrem, hji]

theorem pksRemove_of_not_held (h : ¬Held sl id) : pksRemove sl id = (.absent, sl) := by
  obtain ⟨_, habs⟩ | ⟨j, hvj, hj, _⟩ := pksRemove_cases sl id
  · exact habs
  · exact absurd ⟨j, hvj, hj⟩ h

/-- In a set without duplicates (R23 (a)) one freed slot takes its identity out of the set. -/
theorem not_held_of_freed (hd : Distinct sl) (hv : (slot sl i).v = true) :
    ¬Held (setSlot sl i (freed (slot sl i))) (slot sl i).id := by
  intro hheld
  obtain ⟨j, hne, hvj, hj⟩ := (exists_freed (freed_v _) (P := fun x => x.id = (slot sl i).id)).1 hheld
  exact hne (hd j i hvj hv hj)

theorem exec_remove_of_not_held {s : State} (h : ¬Held s.slots id) :
    exec (.remove id) s = .next (s.answer (.remove .absent)) := by
  rw [exec_remove, pksRemove_of_not_held h]
  rfl

/-! ### COUNT and PKS_CLEAR -/

/-- The six indices of the count are all the indices, each once. -/
theorem pksCount_eq_card (sl : Slots) : pksCount sl = (Finset.univ.filter fun i : Fin 6 => (slot sl i).v = true).card := by
  have huniv : (Finset.univ : Finset (Fin 6)) = slotIdx.toFinset := by decide
  have hnodup : slotIdx.Nodup := by decide
  rw [huniv, ← List.toFinset_filter, List.toFinset_card_of_nodup (hnodup.filter _)]
  simp [pksCount, List.countP_eq_length_filter]

@[simp] theorem slot_pksClear (i : Fin 6) : slot pksClear i = ⟨false, 0, 0, 0⟩ := Vector.getElem_replicate _

end PressedKeys

/-- Settles O19: the slot REMOVE finds is the only one with the identity, so freeing it leaves the identity absent. -/
theorem removeAnswerAndSlots : Obligations.RemoveAnswerAndSlots := by
  intro s id
  refine ⟨fun i hd hv hi => ⟨_, exec_remove s id, ?_, exec_remove_of_not_held ?_⟩, exec_remove_of_not_held⟩
  · rw [pksRemove_of_held hd hv hi]
    rfl
  · rw [pksRemove_of_held hd hv hi, ← hi]
    exact not_held_of_freed hd hv

/-- Settles O17: the answer is `pksContains`, true exactly when some valid slot has the identity. -/
theorem containsAnswer : Obligations.ContainsAnswer := by
  intro s id
  simp only [exec_contains]
  refine ⟨fun hheld => ?_, fun hfree => ?_⟩
  · rw [(pksContains_iff id).2 hheld]
  · rw [(pksContains_false_iff id).2 hfree]

/-- Settles O20: the count of the six indices is the cardinality, and it is 6 exactly when no slot is left out. -/
theorem countAnswer : Obligations.CountAnswer := by
  intro s
  rw [exec_count, ← pksCount_eq_card]
  exact ⟨rfl, pksCount_eq_six_iff⟩

/-- Settles O21: PKS_CLEAR writes the slots, each of which is then zero, and nothing else but the outputs. -/
theorem pksClearEmptiesEverySlot : Obligations.PksClearEmptiesEverySlot :=
  fun s => ⟨_, exec_pksClear s, slot_pksClear, rfl, rfl, rfl, rfl⟩

end Sys2Proof.Machine
end

section
/-! The event operations (42_interpreter.md): the dispatch of a code (R140), the control keys (R143, R144), the makes that
resolve to nothing (R149) and the make of a seventh key (R151). -/

namespace Sys2Proof

open Machine

section Select

variable {K : Keymap} {code : Code}

/-! ### The dispatch -/

theorem select_of_shift {m : ShiftKey} (h : lookupMod K (keyId code) = some (shiftLine m)) :
    select K code = if rel code then .shiftBr m else .shiftMk m := by
  cases m <;> simp [select, h, shiftLine]

theorem select_of_ctrl {m : CtrlKey} (h : lookupMod K (keyId code) = some (ctrlLine m)) :
    select K code = if rel code then .ctrlBr m else .ctrlMk m := by
  cases m <;> simp [select, h, ctrlLine]

theorem select_of_alt (h : lookupMod K (keyId code) = some .alt) :
    select K code = if rel code then .altBr else .altMk := by
  simp only [select, h]

theorem select_of_break (h : lookupMod K (keyId code) = none) (hr : rel code = true) :
    select K code = .keyBr (keyId code) := by
  simp [select, h, hr]

theorem select_of_special (h : KeyMake K code) (hs : (lookupSpecial K (spKey code)).isSome = true) :
    select K code = .specialMk code := by
  obtain ⟨pos, hpos⟩ := Option.isSome_iff_exists.1 hs
  simp [select, h.1, h.2, hpos]

theorem select_of_print (h : KeyMake K code) (hs : lookupSpecial K (spKey code) = none) :
    select K code = .printMk code := by
  simp [select, h.1, h.2, hs]

end Select

end Sys2Proof

namespace Sys2Proof.Machine

/-- The hardware's dispatch runs the operation that the decoder selects (R90, R140). -/
theorem exec_event_eq_exec_select (s : State) (code : Code) :
    exec (.event code) s = exec (select s.keymap code) s := by
  rw [exec_event]
  obtain ⟨m, h, e⟩ | ⟨m, h, e⟩ | ⟨h, e⟩ | ⟨h, hr, e⟩ | ⟨h, hr, hs, e⟩ | ⟨h, hr, hs, e⟩ := runEvent_cases code s
  · rw [e, select_of_shift h]; cases rel code <;> rfl
  · rw [e, select_of_ctrl h]; cases rel code <;> rfl
  · rw [e, select_of_alt h]; cases rel code <;> rfl
  · rw [e, select_of_break h hr, exec_keyBr]
  · rw [e, select_of_special ⟨h, hr⟩ hs, exec_specialMk]
  · rw [e, select_of_print ⟨h, hr⟩ hs, exec_printMk]

/-- Settles O28: EVENT is exec of the selected operation, and the selection is R140's listing branch by branch. -/
theorem eventDispatch : Obligations.EventDispatch := by
  intro s code
  rw [exec_event_eq_exec_select]
  refine ⟨fun m h => ?_, fun m h => ?_, fun h => ?_, fun h hr => ?_, fun h hr => ⟨fun hs => ?_, fun hs => ?_⟩, rfl⟩
  · rw [select_of_shift h, apply_ite exec, ite_apply]
  · rw [select_of_ctrl h, apply_ite exec, ite_apply]
  · rw [select_of_alt h, apply_ite exec, ite_apply]
  · rw [select_of_break h hr]
  · rw [select_of_special ⟨h, hr⟩ hs]
  · rw [select_of_print ⟨h, hr⟩ hs]

/-! ### The control keys -/

/-- `writeLine_bit` at every bit number: MOD has no bit from 4 on. -/
theorem writeLine_getLsbD {l : Line} {i : Fin 4} (hl : modBit l = some i) (md : BitVec 4) (down : Bool) (j : Nat) :
    (writeLine md l down).getLsbD j = if j = i then down else md.getLsbD j := by
  by_cases hj : j < 4
  · simpa only [hl, Option.some.injEq, Fin.ext_iff, eq_comm] using writeLine_bit md l down ⟨j, hj⟩
  · have hne : j ≠ i := by omega
    rw [if_neg hne, BitVec.getLsbD_of_ge _ _ (by omega), BitVec.getLsbD_of_ge _ _ (by omega)]

theorem writeLine_ctrl_getLsbD (m : CtrlKey) (md : BitVec 4) (down : Bool) (j : Nat) :
    (writeLine md (ctrlLine m) down).getLsbD j = if j = (if m = .left then 2 else 3) then down else md.getLsbD j := by
  cases m with
  | left => exact writeLine_getLsbD (i := 2) rfl md down j
  | right => exact writeLine_getLsbD (i := 3) rfl md down j

/-- Settles O31: both operations report MODIFIER after one write of MOD, which writes the key's bit alone. -/
theorem controlKeysWriteOnlyMod : Obligations.ControlKeysWriteOnlyMod :=
  fun s m => ⟨⟨_, exec_ctrlMk s m, writeLine_ctrl_getLsbD m s.mod true⟩,
    ⟨_, exec_ctrlBr s m, writeLine_ctrl_getLsbD m s.mod false⟩⟩

/-! ### The unmapped drop -/

section Unmapped

variable {K : Keymap}

theorem lookupAscii_eq_none_iff {a : Byte} :
    lookupAscii K a = none ↔
      a.toNat < 0x20 ∨ 0x7E < a.toNat ∨
        ∃ _ : 0x20 ≤ a.toNat ∧ a.toNat ≤ 0x7E, K.romAscii[a.toNat - 0x20] = 0xFF := by
  by_cases hin : 0x20 ≤ a.toNat ∧ a.toNat ≤ 0x7E
  · have hlow : ¬a.toNat < 0x20 := by omega
    have hhigh : ¬0x7E < a.toNat := by omega
    rw [lookupAscii_of_in_range hin]
    simp [hin, hlow, hhigh]
  · have hout : a.toNat < 0x20 ∨ 0x7E < a.toNat := by omega
    simp only [lookupAscii_of_out_of_range hout, true_iff]
    exact hout.imp_right .inl

/-- The causes of an empty resolution (R149), up to the two of LOOKUP_ASCII. -/
theorem resolve_eq_none_iff {code : Code} {sh ct : Bool} :
    resolve K code sh ct = none ↔
      lookupSpecial K (spKey code) = some 0xFF ∨
      (lookupSpecial K (spKey code) = none ∧
        (sc2ascii K ⟨spKey code, sh, ct⟩ = none ∨
          ∃ a, sc2ascii K ⟨spKey code, sh, ct⟩ = some a ∧ lookupAscii K a = none)) := by
  unfold resolve
  cases hs : lookupSpecial K (spKey code) with
  | some pos => simp [unmapped_iff]
  | none =>
    cases hq : sc2ascii K ⟨spKey code, sh, ct⟩ with
    | none => simp
    | some a => cases ha : lookupAscii K a <;> simp [ha]

end Unmapped

theorem unchanged_report (s : State) (st : EvStat) (q : Option ScQuery) : s.Unchanged (s.report st q) :=
  ⟨rfl, rfl, rfl, rfl, rfl⟩

/-- Settles O36: a make without a resolution ends in a report, and the resolution is empty for R149's causes only. -/
theorem unmappedMakeIsDropped : Obligations.UnmappedMakeIsDropped := by
  intro s code
  refine ⟨fun hmk hnone => ?_, ?_⟩
  · obtain ⟨_, q, e⟩ | ⟨p, o, q, hsome, _⟩ := runEvent_make hmk
    · exact ⟨_, exec_event s code, e ▸ unchanged_report s _ q, by rw [e]; rfl⟩
    · simp [hnone] at hsome
  · simp only [← lookupAscii_eq_none_iff]
    exact resolve_eq_none_iff

/-! ### The seventh key -/

section SeventhKey

variable {s : State} {code brk : Code} {id : KeyId}

/-- The break of a key that is not held is NOTHELD and changes nothing (R148). -/
theorem exec_break_of_not_held (hmod : lookupMod s.keymap (keyId code) = none) (h : ¬Held s.slots (keyId code))
    (hid : keyId brk = keyId code) (hr : rel brk = true) :
    ∃ t, exec (.event brk) s = .next t ∧ s.Unchanged t ∧ t.out.evstat = some .notHeld := by
  rw [← hid] at hmod h
  exact ⟨s.report .notHeld none, by rw [exec_event, runEvent_break hmod hr, keyBreak_of_absent h],
    unchanged_report s _ _, rfl⟩

/-- The break of a held key is RELEASED and frees its slot; tables and MOD stay (R148). -/
theorem exec_keyBr_of_held {i : Fin 6} (hd : Distinct s.slots) (hv : (slot s.slots i).v = true) :
    ∃ t, exec (.keyBr (slot s.slots i).id) s = .next t ∧ t.out.evstat = some .released ∧
      t.slots = setSlot s.slots i (freed (slot s.slots i)) ∧ t.keymap = s.keymap ∧ t.mod = s.mod :=
  ⟨_, (exec_keyBr s _).trans (congrArg Host.Outcome.next (keyBreak_of_held hd hv rfl)), rfl, rfl, rfl, rfl⟩

theorem runEvent_make_of_resolves (hmk : KeyMake s.keymap code) (hres : (s.resolution code).isSome = true) :
    ∃ p o q, runEvent code s = press (keyId code) p o q s := by
  obtain ⟨hnone, _⟩ | ⟨p, o, q, _, _, _, _, e⟩ := runEvent_make hmk
  · simp [hnone] at hres
  · exact ⟨p, o, q, e⟩

theorem held_setSlot {sl : Slots} (i : Fin 6) (pos : Position) (ovr : Ovr) :
    Held (setSlot sl i ⟨true, ovr, pos, id⟩) id :=
  ⟨i, by simp⟩

theorem held_of_held_freed {sl : Slots} {i : Fin 6} (h : Held (setSlot sl i (freed (slot sl i))) id) : Held sl id := by
  obtain ⟨j, _, hv, hid⟩ := (exists_freed (freed_v _) (P := fun x => x.id = id)).1 h
  exact ⟨j, hv, hid⟩

theorem not_full_freed {sl : Slots} (i : Fin 6) : ¬Full (setSlot sl i (freed (slot sl i))) :=
  fun hfull => by simpa using hfull i

/-- With a slot free, the make of a mapped key that is not held brings the key in (R146, R147). -/
theorem runEvent_make_enters (hmk : KeyMake s.keymap code) (hres : (s.resolution code).isSome = true)
    (h : ¬Held s.slots (keyId code)) (hfree : ¬Full s.slots) : Held (runEvent code s).slots (keyId code) := by
  obtain ⟨p, o, q, e⟩ := runEvent_make_of_resolves hmk hres
  obtain ⟨i, hi⟩ := exists_lowestFree hfree
  rw [e, press_of_free h hi]
  exact held_setSlot i p o

/-- No event but the make of a key itself brings the key into the set (R23 (d)). -/
theorem keyMake_of_runEvent_enters (h : ¬Held s.slots id) (h' : Held (runEvent code s).slots id) :
    KeyMake s.keymap code ∧ keyId code = id := by
  obtain ⟨m, _, e⟩ | ⟨m, _, e⟩ | ⟨_, e⟩ | ⟨_, st, q, e⟩ | ⟨hmod, hr, i, p, o, st, q, hi, _, _, _, _, e⟩ |
    ⟨_, _, i, _, _, e⟩ := runEvent_effect code s <;> rw [e] at h'
  · exact absurd h' h
  · exact absurd h' h
  · exact absurd h' h
  · exact absurd h' h
  · obtain hid | hold := (exists_filled hi rfl (P := fun x => x.id = id)).1 h'
    · exact ⟨⟨hmod, hr⟩, hid⟩
    · exact absurd hold h
  · exact absurd (held_of_held_freed h') h

end SeventhKey

/-- Settles O38: the make ends in a report, so the release of one of the six frees a slot of a set that never held the key,
which only the key's own make can then bring in. -/
theorem seventhKeyIsDropped : Obligations.SeventhKeyIsDropped := by
  intro s code hmk hfull hnot hres
  obtain ⟨p, o, q, hpress⟩ := runEvent_make_of_resolves hmk hres
  have hdrop : runEvent code s = s.report .full q := hpress.trans (press_of_full hnot hfull)
  refine ⟨s.report .full q, by rw [exec_event, hdrop], unchanged_report s _ _, rfl,
    fun brk => exec_break_of_not_held hmk.1 hnot, fun i hd => ?_⟩
  obtain ⟨u, hexec, hstat, hslots, hkeymap, hmod⟩ := exec_keyBr_of_held (s := s.report .full q) hd (hfull i)
  have hgone : ¬Held u.slots (keyId code) := by
    rw [hslots]
    exact fun hheld => hnot (held_of_held_freed hheld)
  have hfree : ¬Full u.slots := by
    rw [hslots]
    exact not_full_freed i
  have hmk' : KeyMake u.keymap code := hkeymap ▸ hmk
  have hres' : (u.resolution code).isSome = true := by
    rw [State.resolution, hkeymap, hmod]
    exact hres
  refine ⟨u, hexec, hstat, hgone, fun c v hv hheld => ?_, ⟨_, exec_event u code, ?_⟩,
    fun brk => exec_break_of_not_held hmk'.1 hgone⟩
  · cases hv
    obtain ⟨hmake, hid⟩ := keyMake_of_runEvent_enters hgone hheld
    exact ⟨hkeymap ▸ hmake, hid⟩
  · exact runEvent_make_enters hmk' hres' hgone hfree

end Sys2Proof.Machine
end

section
/-! The matrix state (43_matrix_state.md): ASSERT and CLEAR of a position (R170, R171), and the SPACE sentinel (R176). -/

namespace Sys2Proof.Machine

section MatrixState

variable {K : Keymap} {pos : Position} {m : Matrix} {r : RowNum}

/-! ### ASSERT and CLEAR -/

theorem rowBits_assertBits_same (h : validRow (rowOf pos) = true) :
    rowBits (assertBits K pos m) (rowOf pos) = rowBits m (rowOf pos) ||| maskOf K pos := by
  rw [rowBits_assertBits, if_pos ⟨h, rfl⟩]

theorem rowBits_assertBits_other (h : r ≠ rowOf pos) : rowBits (assertBits K pos m) r = rowBits m r := by
  rw [rowBits_assertBits, if_neg fun ⟨_, e⟩ => h e.symm]

theorem assertBits_idem : assertBits K pos (assertBits K pos m) = assertBits K pos m := by
  refine matrix_ext fun r hr => ?_
  by_cases h : r = rowOf pos
  · subst h
    rw [rowBits_assertBits_same hr, rowBits_assertBits_same hr, BitVec.or_assoc, BitVec.or_self]
  · rw [rowBits_assertBits_other h]

theorem rowBits_clearBits_same (h : validRow (rowOf pos) = true) :
    rowBits (clearBits K pos m) (rowOf pos) = rowBits m (rowOf pos) &&& ~~~maskOf K pos := by
  rw [rowBits_clearBits, if_pos ⟨h, rfl⟩]

theorem rowBits_clearBits_other (h : r ≠ rowOf pos) : rowBits (clearBits K pos m) r = rowBits m r := by
  rw [rowBits_clearBits, if_neg fun ⟨_, e⟩ => h e.symm]

theorem clearBits_idem : clearBits K pos (clearBits K pos m) = clearBits K pos m := by
  refine matrix_ext fun r hr => ?_
  by_cases h : r = rowOf pos
  · subst h
    rw [rowBits_clearBits_same hr, rowBits_clearBits_same hr, BitVec.and_assoc, BitVec.and_self]
  · rw [rowBits_clearBits_other h]

theorem validRow_eq_false (h : ¬(1 ≤ r.toNat ∧ r.toNat ≤ 8)) : validRow r = false :=
  Bool.eq_false_iff.2 fun hr => h (validRow_iff.1 hr)

/-! ### The SPACE sentinel -/

theorem maskOf_sentinel (h : colF pos = 0xF) : maskOf K pos = K.spaceMask :=
  dif_neg (by rw [h]; decide)

theorem oneBit_eq_contains_twoPow (b : Byte) :
    oneBit b = ((List.finRange 8).map fun c => BitVec.twoPow 8 c.val).contains b := rfl

theorem exists_getLsbD_of_oneBit {b : Byte} (h : oneBit b = true) :
    ∃ c < 8, ∀ j, b.getLsbD j = decide (j = c) := by
  rw [oneBit_eq_contains_twoPow, List.contains_iff_mem, List.mem_map] at h
  obtain ⟨c, _, rfl⟩ := h
  exact ⟨c, c.isLt, fun j => by simp [BitVec.getLsbD_twoPow, eq_comm]⟩

theorem oneBit_spaceMask_of_wf (h : K.wf = true) : oneBit K.spaceMask = true := by
  simp only [Keymap.wf, Bool.and_eq_true] at h
  obtain ⟨⟨_, hmask⟩, _⟩ := h
  exact hmask

/-! ### REBUILD after one slot is filled or freed -/

variable {sl : Slots} {i : Fin 6} {id : KeyId} {x : Slot} {md : BitVec 4}

/-- REBUILD in bits (R174): a bit is set iff a held key has it, or SHIFT has it and is shown. -/
theorem rebuiltMatrix_bit (hr : validRow r = true) (c : Nat) :
    (rowBits (rebuiltMatrix K sl md) r).getLsbD c = true ↔
      (∃ i : Fin 6, (slot sl i).v = true ∧ KeyPlace K (slot sl i).pos r c) ∨
      (shiftEff sl md = true ∧ ShiftPlace K r c) :=
  mirrors_bit (s := ⟨rebuiltMatrix K sl md, sl, md, K, [], Output.silent⟩) ((mirrors_iff _).2 rfl) hr c

/-- The held keys reach `shift_eff` through the overrides they carry alone (R25). -/
theorem shiftEff_congr {sl' : Slots}
    (h : ∀ o : Ovr, o ≠ 0 → ((∃ i, (slot sl i).v = true ∧ (slot sl i).ovr = o) ↔
      ∃ i, (slot sl' i).v = true ∧ (slot sl' i).ovr = o)) : shiftEff sl md = shiftEff sl' md := by
  have h1 : force1 sl = force1 sl' := by rw [Bool.eq_iff_iff, force1_iff, force1_iff]; exact h _ (by decide)
  have h0 : force0 sl = force0 sl' := by rw [Bool.eq_iff_iff, force0_iff, force0_iff]; exact h _ (by decide)
  rw [shiftEff, shiftEff, h1, h0]

/-- A free slot rewritten but left free takes no part in what the held keys are. -/
theorem exists_held_of_free (hi : (slot sl i).v = false) (hx : x.v = false) {P : Slot → Prop} :
    (∃ j, (slot (setSlot sl i x) j).v = true ∧ P (slot (setSlot sl i x) j)) ↔
      ∃ j, (slot sl j).v = true ∧ P (slot sl j) := by
  refine (exists_freed hx).trans ⟨fun ⟨j, _, h⟩ => ⟨j, h⟩, fun ⟨j, hv, h⟩ => ⟨j, ?_, hv, h⟩⟩
  rintro rfl
  exact absurd hv (by simp [hi])

/-- A key without override that enters a free slot is REBUILD's ASSERT of its position. -/
theorem rebuiltMatrix_of_filled (hi : (slot sl i).v = false) :
    rebuiltMatrix K (setSlot sl i ⟨true, 0, pos, id⟩) md = assertBits K pos (rebuiltMatrix K sl md) := by
  have hshift : shiftEff (setSlot sl i ⟨true, 0, pos, id⟩) md = shiftEff sl md :=
    shiftEff_congr fun o ho => (exists_filled hi rfl (P := fun x => x.ovr = o)).trans (or_iff_right ho.symm)
  refine matrix_ext_bit fun r hr c _ => ?_
  rw [assertBits_bit _ _ hr, rebuiltMatrix_bit hr, rebuiltMatrix_bit hr, hshift,
    exists_filled hi rfl (P := fun x => KeyPlace K x.pos r c), or_assoc, or_comm]

/-- The bits that a free slot keeps are not seen by REBUILD (R22). -/
theorem rebuiltMatrix_of_free (hi : (slot sl i).v = false) (hx : x.v = false) :
    rebuiltMatrix K (setSlot sl i x) md = rebuiltMatrix K sl md := by
  have hshift : shiftEff (setSlot sl i x) md = shiftEff sl md :=
    shiftEff_congr fun o _ => exists_held_of_free hi hx (P := fun x => x.ovr = o)
  refine matrix_ext_bit fun r hr c _ => ?_
  rw [rebuiltMatrix_bit hr, rebuiltMatrix_bit hr, hshift, exists_held_of_free hi hx (P := fun x => KeyPlace K x.pos r c)]

/-! ### The make and the break of the SPACE key -/

variable {s : State} {code : Code} {ovr : Ovr}

theorem lookupAscii_space (h : K.romAscii[0] = 0x7F) : lookupAscii K 0x20 = some 0x7F := by
  rw [lookupAscii_of_in_range (by decide)]
  simp [h]

theorem resolution_of_print {a : Byte} (hs : lookupSpecial s.keymap (spKey code) = none)
    (hq : sc2ascii s.keymap (s.query code) = some a) (ha : lookupAscii s.keymap a = some pos) :
    s.resolution code = some (pos, lookupOvr s.keymap a) := by
  rw [State.query] at hq
  simp only [State.resolution, resolve, hs, hq, ha]

theorem runEvent_make_of_resolution (hmk : KeyMake s.keymap code) (hres : s.resolution code = some (pos, ovr)) :
    ∃ q, runEvent code s = press (keyId code) pos ovr q s := by
  obtain ⟨hnone, _⟩ | ⟨p, o, q, hsome, _, _, _, e⟩ := runEvent_make hmk
  · simp [hnone] at hres
  · obtain ⟨rfl, rfl⟩ : p = pos ∧ o = ovr := by simpa [hsome] using hres
    exact ⟨q, e⟩

/-- The break of the key that a make has just brought in frees the slot that the make filled (R148). -/
theorem keyBreak_of_filled (hslots : s.slots = setSlot sl i ⟨true, ovr, pos, id⟩) (h : ¬Held sl id) :
    keyBreak id s = ((s.setSlots (setSlot sl i ⟨false, ovr, pos, id⟩)).rebuild).report .released none := by
  have hslot : slot s.slots i = ⟨true, ovr, pos, id⟩ := by simp [hslots]
  obtain ⟨habs, _⟩ | ⟨j, hv, hid, e⟩ := keyBreak_cases id s
  · exact absurd (by rw [hslot]) (habs i (by rw [hslot]))
  · obtain rfl : i = j := by
      by_contra hne
      rw [hslots, slot_setSlot, if_neg hne] at hv hid
      exact h ⟨j, hv, hid⟩
    rw [e, hslot, hslots, setSlot_setSlot]
    rfl

/-- The break after a make gives the rows back to a state that mirrored: the slot that the make filled is free again. -/
theorem exec_break_of_filled {brk : Code} {st : EvStat} {q : Option ScQuery} (hm : s.Mirrors)
    (hi : (slot s.slots i).v = false) (hnot : ¬Held s.slots (keyId brk))
    (hmod : lookupMod s.keymap (keyId brk) = none) (hrel : rel brk = true) :
    ∃ u, exec (.event brk)
        (((s.setSlots (setSlot s.slots i ⟨true, ovr, pos, keyId brk⟩)).rebuild).report st q) = .next u ∧
      u.out.evstat = some .released ∧ u.matrix = s.matrix := by
  refine ⟨_, exec_event _ brk, ?_⟩
  rw [runEvent_break (by exact hmod) hrel, keyBreak_of_filled rfl hnot]
  exact ⟨rfl, (rebuiltMatrix_of_free hi rfl).trans ((mirrors_iff s).1 hm).symm⟩

end MatrixState

/-- Settles O22: the row rules of ASSERT, and its idempotence. -/
theorem assertOrsMaskIntoRow : Obligations.AssertOrsMaskIntoRow := by
  intro s pos
  refine ⟨_, exec_assertPos s pos, rfl, rfl, rfl, rfl, fun hin => rowBits_assertBits_same (validRow_iff.2 hin),
    fun hout => writeRow_invalid _ (validRow_eq_false hout), fun r hr => rowBits_assertBits_other hr, ?_⟩
  rw [exec_assertPos, State.answer_matrix, State.setMatrix_matrix, State.answer_keymap, State.setMatrix_keymap,
    assertBits_idem]
  rfl

/-- Settles O23: the row rules of CLEAR, and its idempotence. -/
theorem clearClearsMaskInRow : Obligations.ClearClearsMaskInRow := by
  intro s pos
  refine ⟨_, exec_clearPos s pos, rfl, rfl, rfl, rfl, fun hin => rowBits_clearBits_same (validRow_iff.2 hin),
    fun hout => writeRow_invalid _ (validRow_eq_false hout), fun r hr => rowBits_clearBits_other hr, ?_⟩
  rw [exec_clearPos, State.answer_matrix, State.setMatrix_matrix, State.answer_keymap, State.setMatrix_keymap,
    clearBits_idem]
  rfl

/-- Settles O27: a sentinel's mask is SPACE_MASK; the make of SPACE is the ASSERT of 0x7F, and its break frees the slot that
the make filled. -/
theorem spaceAssertsOnlyItsMask : Obligations.SpaceAssertsOnlyItsMask := by
  refine ⟨fun s pos hcol _ h1 h8 => ?_, fun s code brk hm hrom hovr hmk hs hq hnot hfree hid hrel => ?_⟩
  · have hrow : validRow (rowOf pos) = true := validRow_iff.2 ⟨h1, h8⟩
    have hmask : maskOf s.keymap pos = s.keymap.spaceMask := maskOf_sentinel hcol
    rw [← hmask]
    exact ⟨⟨_, exec_assertPos s pos, rowBits_assertBits_same hrow, fun r => rowBits_assertBits_other⟩,
      ⟨_, exec_clearPos s pos, rowBits_clearBits_same hrow, fun r => rowBits_clearBits_other⟩,
      fun hwf => hmask ▸ exists_getLsbD_of_oneBit (oneBit_spaceMask_of_wf hwf)⟩
  · obtain ⟨q, hpress⟩ := runEvent_make_of_resolution hmk (resolution_of_print hs hq (lookupAscii_space hrom))
    obtain ⟨i, hi⟩ := exists_lowestFree hfree
    rw [press_of_free hnot hi, hovr, ← hid] at hpress
    have hmatrix : (runEvent code s).matrix = assertBits s.keymap 0x7F s.matrix := by
      rw [hpress, (mirrors_iff s).1 hm]
      exact rebuiltMatrix_of_filled hi.1
    have hmask : maskOf s.keymap 0x7F = s.keymap.spaceMask := maskOf_sentinel rfl
    obtain ⟨u, hbreak⟩ := exec_break_of_filled hm hi.1 (hid ▸ hnot) (hid ▸ hmk.1) hrel
    refine ⟨_, u, exec_event s code, by rw [hpress]; rfl, ?_, ?_, hpress ▸ hbreak⟩
    · rw [hmatrix, ← hmask]
      exact rowBits_assertBits_same (pos := 0x7F) (by decide)
    · rw [hmatrix]
      exact fun r => rowBits_assertBits_other (pos := 0x7F)

end Sys2Proof.Machine
end

section
/-! Decoding (30_encoding.md): the selection table (R90), the encoder's words (R80, R90, R95), the slot layout (R89) and the
sample words of 95_test_vectors.md section 3.1. -/

namespace Sys2Proof

open Machine

section Coding

variable {K : Keymap} {code : Code} {l : Line} {r : Bool} {i : Instr} {id : KeyId}

/-! ### Selection -/

/-- A line is a shift key's, a control key's or that of the alt keys (R87). -/
theorem line_cases (l : Line) : (∃ m, l = shiftLine m) ∨ (∃ m, l = ctrlLine m) ∨ l = .alt := by
  cases l with
  | ls => exact .inl ⟨.left, rfl⟩
  | rs => exact .inl ⟨.right, rfl⟩
  | lc => exact .inr (.inl ⟨.left, rfl⟩)
  | rc => exact .inr (.inl ⟨.right, rfl⟩)
  | alt => exact .inr (.inr rfl)

theorem wf_specialMk_iff :
    (Instr.specialMk code).wf K = true ↔ KeyMake K code ∧ (lookupSpecial K (spKey code)).isSome = true := by
  simp [Instr.wf, KeyMake, and_comm]

theorem wf_printMk_iff :
    (Instr.printMk code).wf K = true ↔ KeyMake K code ∧ lookupSpecial K (spKey code) = none := by
  simp [Instr.wf, KeyMake, and_comm]

theorem wf_keyBr_iff : (Instr.keyBr id).wf K = true ↔ lookupMod K id = none := by
  simp [Instr.wf]

/-- What a code selects can occur and has an encoding (R90). -/
theorem select_wf (K : Keymap) (code : Code) : (select K code).wf K = true ∧ (select K code).internal = false := by
  cases h : lookupMod K (keyId code) with
  | some l =>
    have hline : K.hasLine l = true := hasLine_of_lookup h
    obtain ⟨m, rfl⟩ | ⟨m, rfl⟩ | rfl := line_cases l
    · rw [select_of_shift h]; cases rel code <;> exact ⟨hline, rfl⟩
    · rw [select_of_ctrl h]; cases rel code <;> exact ⟨hline, rfl⟩
    · rw [select_of_alt h]; cases rel code <;> exact ⟨hline, rfl⟩
  | none =>
    cases hr : rel code with
    | true => rw [select_of_break h hr]; exact ⟨wf_keyBr_iff.2 h, rfl⟩
    | false =>
      cases hs : lookupSpecial K (spKey code) with
      | some p =>
        have hsome : (lookupSpecial K (spKey code)).isSome = true := by rw [hs]; rfl
        rw [select_of_special ⟨h, hr⟩ hsome]
        exact ⟨wf_specialMk_iff.2 ⟨⟨h, hr⟩, hsome⟩, rfl⟩
      | none => rw [select_of_print ⟨h, hr⟩ hs]; exact ⟨wf_printMk_iff.2 ⟨⟨h, hr⟩, hs⟩, rfl⟩

/-! ### Encoding -/

/-- The word of a code is read back as what the code selects. -/
theorem decodeOp_of_select (h : select K code = i) : decodeOp K .event code.toNat = .ok i := by
  rw [decodeOp_event, h]

/-- A line with a modifier key has a word, and the word decodes to what every code of the line selects. -/
theorem lineWord_decodes (hl : K.hasLine l = true)
    (hsel : ∀ code, lookupMod K (keyId code) = some l → rel code = r → select K code = i) :
    ∃ p w, lineWord K l r = some (p, w) ∧ decodeOp K p w = .ok i := by
  obtain ⟨⟨p, w⟩, hw⟩ := Option.isSome_iff_exists.1 ((lineWord_isSome l r).trans hl)
  obtain ⟨id, hid, rfl, rfl⟩ := lineWord_some hw
  exact ⟨_, _, hw, decodeOp_of_select (hsel _ (by rw [keyId_mkCode, hid]) (rel_mkCode r false false id))⟩

/-! ### The slot layout -/

/-- The bits of a slot's word (R89). -/
theorem slotWord_bit (x : Slot) (i : Nat) :
    (slotWord x).getLsbD i =
      if i < 13 then x.id.getLsbD i else if i < 21 then x.pos.getLsbD (i - 13)
      else if i < 23 then x.ovr.getLsbD (i - 21) else if i = 23 then x.v else false := by
  show BitVec.getLsbD (w := 1 + 2 + 8 + 13) (BitVec.ofBool x.v ++ x.ovr ++ x.pos ++ x.id) i = _
  rw [BitVec.getLsbD_append, BitVec.getLsbD_append, BitVec.getLsbD_append, BitVec.getLsbD_ofBool]
  have htop : i - 13 - 8 - 2 = 0 ↔ i ≤ 23 := by omega
  simp only [htop]
  grind

theorem slotOfWord_slotWord (x : Slot) : slotOfWord (slotWord x) = x := by
  obtain ⟨v, ovr, pos, id⟩ := x
  simp only [slotOfWord, Slot.mk.injEq]
  refine ⟨by rw [slotWord_bit]; rfl, ?_, ?_, ?_⟩
  all_goals
    apply BitVec.eq_of_getLsbD_eq
    intro i hi
    rw [BitVec.getLsbD_extractLsb', slotWord_bit]
    grind

theorem slotWord_slotOfWord (w : BitVec 24) : slotWord (slotOfWord w) = w := by
  apply BitVec.eq_of_getLsbD_eq
  intro i hi
  simp only [slotWord_bit, slotOfWord, BitVec.getLsbD_extractLsb']
  grind

end Coding

/-- Settles O3: a modifier operation's word is a code of its line, a key operation's word its own code, and each is selected
again; the port operations are read at once. -/
theorem decodeOfEncode : Obligations.DecodeOfEncode := by
  intro K i hwf hint
  cases i with
  | shiftMk m => exact lineWord_decodes hwf fun code h hr => by simp [select_of_shift h, hr]
  | shiftBr m => exact lineWord_decodes hwf fun code h hr => by simp [select_of_shift h, hr]
  | ctrlMk m => exact lineWord_decodes hwf fun code h hr => by simp [select_of_ctrl h, hr]
  | ctrlBr m => exact lineWord_decodes hwf fun code h hr => by simp [select_of_ctrl h, hr]
  | altMk => exact lineWord_decodes hwf fun code h hr => by simp [select_of_alt h, hr]
  | altBr => exact lineWord_decodes hwf fun code h hr => by simp [select_of_alt h, hr]
  | specialMk code =>
    obtain ⟨hmk, hs⟩ := wf_specialMk_iff.1 hwf
    exact ⟨_, _, if_pos hwf, decodeOp_of_select (select_of_special hmk hs)⟩
  | printMk code =>
    obtain ⟨hmk, hs⟩ := wf_printMk_iff.1 hwf
    exact ⟨_, _, if_pos hwf, decodeOp_of_select (select_of_print hmk hs)⟩
  | keyBr id =>
    have hsel : select K (mkCode true false false id) = .keyBr id := by
      rw [select_of_break (by rw [keyId_mkCode, wf_keyBr_iff.1 hwf]) (rel_mkCode ..), keyId_mkCode]
    exact ⟨_, _, if_pos hwf, decodeOp_of_select hsel⟩
  | event code => exact ⟨_, _, rfl, decode_event code⟩
  | rd row => exact ⟨_, _, rfl, by simp [decodeOp, decode_read]⟩
  | rst => exact ⟨_, _, rfl, rfl⟩
  | _ => exact Bool.noConfusion hint

/-- Settles O2: one equation of `select` for each row, and every operation selected is well formed. -/
theorem selectionFollowsTable : Obligations.SelectionFollowsTable :=
  fun K code => ⟨fun _ => select_of_shift, fun _ => select_of_ctrl, select_of_alt, select_of_break,
    fun h hr => ⟨select_of_special ⟨h, hr⟩, select_of_print ⟨h, hr⟩⟩, select_wf K code⟩

/-- Settles O4: the two directions of the layout, bit by bit. -/
theorem slotLayoutIsExact : Obligations.SlotLayoutIsExact :=
  ⟨slotOfWord_slotWord, slotWord_slotOfWord⟩

/-- Settles O1: the selection reads the two given tables and nothing else of the configuration, so that every sample is a
closed computation. -/
theorem sampleWordsDecode : Obligations.SampleWordsDecode := by
  refine ⟨by decide, by decide, by decide, rfl, rfl, rfl, rfl, rfl, rfl, fun K hmod hspecial => ?_⟩
  simp only [select, lookupMod, lookupSpecial, hmod, hspecial]
  decide

end Sys2Proof
end

section
/-! The step (00_scope.md R9): it runs the oldest activity or idles, it always ends (R180), a reset wins (R186), and no
output is read (R27). -/

namespace Sys2Proof.Machine

section Step

variable {s t : State}

/-- Everything a step can do: idle, run an event, read a row, reset. -/
theorem step_next_cases (h : step s = .next t) :
    (s.inputs = [] ∧ t = s.setOut Output.silent) ∨
    (∃ code rest, s.inputs = .event code :: rest ∧ t = runEvent code (s.setInputs rest)) ∨
    (∃ row rest, s.inputs = .read row :: rest ∧
      t = (s.setInputs rest).setOut { Output.silent with rdData := some (rowBits s.matrix row) }) ∨
    (∃ d rest, s.inputs = .reset d :: rest ∧ t = resetOp (s.setInputs rest)) := by
  cases hin : s.inputs with
  | nil =>
    rw [step_idle hin] at h
    cases h
    exact .inl ⟨rfl, rfl⟩
  | cons a rest =>
    rw [step_cons hin] at h
    cases a <;> cases h
    · exact .inr (.inl ⟨_, _, rfl, rfl⟩)
    · exact .inr (.inr (.inl ⟨_, _, rfl, rfl⟩))
    · exact .inr (.inr (.inr ⟨_, _, rfl, rfl⟩))

/-- Every operation answers a next state (R180). -/
theorem exec_next (i : Instr) (s : State) : ∃ t, exec i s = .next t := by
  cases i <;> exact ⟨_, rfl⟩

theorem step_next (s : State) : ∃ t, step s = .next t := by
  cases hin : s.inputs with
  | nil => exact ⟨_, step_idle hin⟩
  | cons a rest =>
    rw [step_cons hin]
    exact exec_next _ _

/-- The end of an operation replaces the outputs, so those before are not seen: for each operation both sides are one
term. -/
theorem exec_setOut (i : Instr) (s : State) (o : Output) : exec i (s.setOut o) = exec i s := by
  cases i <;> rfl

theorem step_setOut (s : State) (o : Output) : step (s.setOut o) = step s := by
  cases hin : s.inputs with
  | nil => rw [step_idle hin, step_idle (s := s.setOut o) hin, State.setOut_setOut]
  | cons a rest =>
    rw [step_cons hin, step_cons (s := s.setOut o) hin]
    exact exec_setOut a.instr (s.setInputs rest) o

/-- An event keeps the configuration and the activity to come. -/
theorem runEvent_keymap_inputs (code : Code) (s : State) :
    (runEvent code s).keymap = s.keymap ∧ (runEvent code s).inputs = s.inputs := by
  obtain ⟨_, _, e⟩ | ⟨_, _, e⟩ | ⟨_, e⟩ | ⟨_, _, _, e⟩ | ⟨_, _, _, _, _, _, _, _, _, _, _, _, e⟩ |
    ⟨_, _, _, _, _, e⟩ := runEvent_effect code s <;> rw [e] <;> exact ⟨rfl, rfl⟩

end Step

/-- Settles O5: every activity's word decodes to the instruction the step runs. -/
theorem stepRunsDecodedInstruction : Obligations.StepRunsDecodedInstruction :=
  fun _ => ⟨fun a _ h => ⟨a.instr, decode_activity a, step_cons h⟩, step_idle⟩

/-- Settles O6: the step of a reset activity is `resetOp`, whatever code the activity carries. -/
theorem resetDiscardsSimultaneousEvent : Obligations.ResetDiscardsSimultaneousEvent :=
  fun s _ rest h => ⟨resetOp (s.setInputs rest), step_cons h, rfl, rfl, rfl⟩

/-- Settles O7: the event leaves the read at the head of the activity, and a read shows a row and writes nothing. -/
theorem readSeesCompletedEvent : Obligations.ReadSeesCompletedEvent := by
  intro s code row rest hin
  have hstep : step s = .next (runEvent code (s.setInputs (.read row :: rest))) := step_cons hin
  obtain ⟨_, hread⟩ := runEvent_keymap_inputs code (s.setInputs (.read row :: rest))
  exact ⟨_, _, hstep, exec_event _ code, step_cons hread, rfl, rfl, rfl, rfl, rfl⟩

/-- Settles O8: `exec` answers a next state for every instruction, and the step is one of its runs or idles. -/
theorem everyOperationEnds : Obligations.EveryOperationEnds := ⟨exec_next, step_next⟩

/-- Settles O10: no operation reads the output record. -/
theorem outputsFeedBackIntoNothing : Obligations.OutputsFeedBackIntoNothing := ⟨exec_setOut, step_setOut⟩

end Sys2Proof.Machine
end

section
/-! The invariant (10_state.md R22, R23, R29): reset has it, every step keeps it, and what it says of the rows. -/

namespace Sys2Proof.Machine

section Invariant

variable {s t : State} {sl : Slots} {K : Keymap} {i : Fin 6} {x : Slot} {id : KeyId}
  {pos : Position} {ovr : Ovr} {md : BitVec 4}

/-- What the invariant asks of one held key, whatever else is held (R22, R23 (e), R88). -/
structure SlotOk (K : Keymap) (x : Slot) : Prop where
  noModifier : lookupMod K x.id = none
  fromTables : x.pos ∈ K.tablePositions ∧ unmapped x.pos = false
  ovrLegal : x.ovr ≠ 0b01#2

theorem inv_iff :
    s.Inv ↔ s.Mirrors ∧ Distinct s.slots ∧ ∀ i, (slot s.slots i).v = true → SlotOk s.keymap (slot s.slots i) :=
  ⟨fun h => ⟨h.mirrors, h.distinct, fun i hv => ⟨h.noModifier i hv, h.fromTables i hv, h.ovrLegal i hv⟩⟩,
    fun ⟨hm, hd, hok⟩ => ⟨hm, hd, fun i hv => (hok i hv).noModifier, fun i hv => (hok i hv).fromTables,
      fun i hv => (hok i hv).ovrLegal⟩⟩

/-- The invariant speaks of rows, slots, MOD and configuration alone. -/
theorem inv_of_same_fields (h : s.Inv) (hm : t.matrix = s.matrix) (hsl : t.slots = s.slots) (hmd : t.mod = s.mod)
    (hk : t.keymap = s.keymap) : t.Inv := by
  obtain ⟨hmir, hd, hok⟩ := inv_iff.1 h
  rw [mirrors_iff] at hmir
  exact inv_iff.2 ⟨(mirrors_iff t).2 (by rw [hm, hsl, hmd, hk, hmir]), hsl ▸ hd, by rw [hsl, hk]; exact hok⟩

theorem inv_report (h : s.Inv) (st : EvStat) (q : Option ScQuery) : (s.report st q).Inv :=
  inv_of_same_fields h rfl rfl rfl rfl

/-- After REBUILD the invariant is a matter of the slots. -/
theorem inv_rebuild (hd : Distinct s.slots)
    (hok : ∀ i, (slot s.slots i).v = true → SlotOk s.keymap (slot s.slots i)) : s.rebuild.Inv :=
  inv_iff.2 ⟨rebuild_mirrors s, hd, hok⟩

/-! ### A slot filled or freed -/

/-- A property of every held key stays one when a slot is written with a key that has it, or freed. -/
theorem forall_held_setSlot {P : Slot → Prop} (h : ∀ j, (slot sl j).v = true → P (slot sl j)) (hx : x.v = true → P x) :
    ∀ j, (slot (setSlot sl i x) j).v = true → P (slot (setSlot sl i x) j) := by
  intro j
  rw [slot_setSlot]
  split
  · exact hx
  · exact h j

theorem distinct_filled (hd : Distinct sl) (h : ¬Held sl id) : Distinct (setSlot sl i ⟨true, ovr, pos, id⟩) := by
  intro j k
  simp only [slot_setSlot]
  split <;> split <;> rename_i hj hk
  · exact fun _ _ _ => hj.symm.trans hk
  · exact fun _ hv e => absurd ⟨k, hv, e.symm⟩ h
  · exact fun hv _ e => absurd ⟨j, hv, e⟩ h
  · exact hd j k

theorem distinct_freed (hd : Distinct sl) (hx : x.v = false) : Distinct (setSlot sl i x) := by
  intro j k
  simp only [slot_setSlot]
  split <;> split
  · exact fun hv => absurd hv (by simp [hx])
  · exact fun hv => absurd hv (by simp [hx])
  · exact fun _ hv => absurd hv (by simp [hx])
  · exact hd j k

/-! ### Nothing down -/

theorem force1_false_iff : force1 sl = false ↔ ∀ i, (slot sl i).v = true → (slot sl i).ovr ≠ 0b11#2 := by
  rw [← Bool.not_eq_true, force1_iff]
  push Not
  rfl

theorem force0_false_iff : force0 sl = false ↔ ∀ i, (slot sl i).v = true → (slot sl i).ovr ≠ 0b10#2 := by
  rw [← Bool.not_eq_true, force0_iff]
  push Not
  rfl

/-- Without an override `shift_eff` is the state of the shift keys (R25). -/
theorem shiftEff_of_no_override (h1 : force1 sl = false) (h0 : force0 sl = false) : shiftEff sl md = shiftPhys md := by
  rw [shiftEff, h1, h0]
  rfl

theorem shiftEff_of_none_held (h : ∀ i, (slot sl i).v = false) : shiftEff sl md = shiftPhys md :=
  shiftEff_of_no_override (force1_false_iff.2 fun i hv => by simp [h i] at hv)
    (force0_false_iff.2 fun i hv => by simp [h i] at hv)

theorem rebuiltMatrix_of_none_down (h : ∀ i, (slot sl i).v = false) (hmd : shiftPhys md = false) :
    rebuiltMatrix K sl md = clearedMatrix := by
  refine matrix_ext_bit fun r hr c _ => ?_
  rw [rebuiltMatrix_bit hr, shiftEff_of_none_held h, hmd, rowBits_cleared]
  simp [h]

/-- A state as RST leaves it has the invariant, in every configuration. -/
theorem inv_of_cleared (hsl : s.slots = pksClear) (hmd : s.mod = 0) (hm : s.matrix = clearedMatrix) : s.Inv := by
  have hfree : ∀ i, (slot s.slots i).v = false := fun i => by rw [hsl, slot_pksClear]
  refine inv_iff.2 ⟨(mirrors_iff s).2 ?_, fun i _ hv => ?_, fun i hv => ?_⟩
  · rw [hm, hmd, rebuiltMatrix_of_none_down hfree (by decide)]
  · simp [hfree i] at hv
  · simp [hfree i] at hv

/-! ### Every event and every step -/

theorem runEvent_inv (code : Code) (h : s.Inv) : (runEvent code s).Inv := by
  obtain ⟨hm, hd, hok⟩ := inv_iff.1 h
  obtain ⟨m, _, e⟩ | ⟨m, _, e⟩ | ⟨_, e⟩ | ⟨_, st, q, e⟩ | ⟨hmod, _, i, p, o, st, q, _, hnot, ho, hp, hu, e⟩ |
    ⟨_, _, i, _, _, e⟩ := runEvent_effect code s <;> rw [e]
  · exact inv_report (inv_rebuild (s := s.setMod (writeLine s.mod (shiftLine m) (!rel code))) hd hok) _ _
  · refine inv_iff.2 ⟨(mirrors_iff _).2 ?_, hd, hok⟩
    exact ((mirrors_iff s).1 hm).trans (rebuiltMatrix_ctrl s.mod m _).symm
  · exact inv_report h _ _
  · exact inv_report h _ _
  · refine inv_report (inv_rebuild (s := s.setSlots _) (distinct_filled hd hnot) ?_) _ _
    exact forall_held_setSlot hok fun _ => ⟨hmod, ⟨hp, hu⟩, ho⟩
  · refine inv_report (inv_rebuild (s := s.setSlots _) (distinct_freed hd (freed_v _)) ?_) _ _
    exact forall_held_setSlot hok fun hv => absurd hv (by simp)

end Invariant

/-- Settles O47: the reset state is cleared. -/
theorem resetHasInvariant : Obligations.ResetHasInvariant := inv_of_cleared rfl rfl rfl

/-- Settles O48: an event keeps the invariant, a reset establishes it, and the other steps touch nothing it speaks of. -/
theorem stepKeepsInvariant : Obligations.StepKeepsInvariant := by
  intro s t h hstep
  obtain ⟨_, rfl⟩ | ⟨code, rest, _, rfl⟩ | ⟨row, rest, _, rfl⟩ | ⟨d, rest, _, rfl⟩ := step_next_cases hstep
  · exact inv_of_same_fields h rfl rfl rfl rfl
  · exact runEvent_inv code (inv_of_same_fields h rfl rfl rfl rfl)
  · exact inv_of_same_fields h rfl rfl rfl rfl
  · exact inv_of_cleared rfl rfl rfl

/-- Settles O49: the rows mirror a set without keys and a SHIFT bit that is not shown, so they are the cleared file. -/
theorem allKeysUpMeansRowsZero : Obligations.AllKeysUpMeansRowsZero := by
  intro s h ⟨hfree, hshift⟩ r
  rw [(mirrors_iff s).1 h.mirrors, rebuiltMatrix_of_none_down hfree hshift, rowBits_cleared]

/-- Settles O40: an event fills a free slot or frees one with the code's identity; every other step but a reset
writes no slot. -/
theorem heldKeyLeavesOnlyByItsBreak : Obligations.HeldKeyLeavesOnlyByItsBreak := by
  intro s t a rest i hin hreset hstep hv
  obtain ⟨_, rfl⟩ | ⟨code, rest', hin', rfl⟩ | ⟨_, _, _, rfl⟩ | ⟨d, _, hin', _⟩ := step_next_cases hstep
  · exact .inl rfl
  · obtain ⟨_, _, e⟩ | ⟨_, _, e⟩ | ⟨_, e⟩ | ⟨_, _, _, e⟩ | ⟨_, _, j, _, _, _, _, hj, _, _, _, _, e⟩ |
      ⟨_, hr, j, _, hid, e⟩ := runEvent_effect code (s.setInputs rest') <;> rw [e]
    · exact .inl rfl
    · exact .inl rfl
    · exact .inl rfl
    · exact .inl rfl
    · have hne : j ≠ i := by
        rintro rfl
        exact absurd hv (by simpa using hj)
      exact .inl (by simp [hne])
    · by_cases hji : j = i
      · subst hji
        rw [hin] at hin'
        obtain ⟨rfl, _⟩ := List.cons.inj hin'
        exact .inr ⟨code, rfl, hr, hid.symm, by simp [freed]⟩
      · exact .inl (by simp [hji])
  · exact .inl rfl
  · rw [hin] at hin'
    exact absurd (List.cons.inj hin').1 (hreset d)

/-- Settles O53: only an event writes a new identity, and it is a make that resolved and found a lowest free slot. -/
theorem keyEntersOnlyByItsMake : Obligations.KeyEntersOnlyByItsMake := by
  intro s t a rest id hin hstep hnot hheld
  obtain ⟨_, rfl⟩ | ⟨code, rest', hin', rfl⟩ | ⟨_, _, _, rfl⟩ | ⟨d, _, _, rfl⟩ := step_next_cases hstep
  · exact absurd hheld hnot
  · rw [hin] at hin'
    obtain ⟨rfl, rfl⟩ := List.cons.inj hin'
    obtain ⟨hmk, rfl⟩ := keyMake_of_runEvent_enters (s := s.setInputs rest) hnot hheld
    obtain ⟨_, q, e⟩ | ⟨pos, ovr, q, hres, _, _, _, e⟩ := runEvent_make hmk
    · rw [e] at hheld
      exact absurd hheld hnot
    · rw [e] at hheld ⊢
      obtain ⟨_, e⟩ | ⟨_, _, e⟩ | ⟨_, i, hi, _, e⟩ := press_cases (keyId code) pos ovr q (s.setInputs rest)
      · rw [e] at hheld
        exact absurd hheld hnot
      · rw [e] at hheld
        exact absurd hheld hnot
      · rw [e]
        exact ⟨code, i, pos, ovr, rfl, hmk, rfl, findFree_eq_some_iff.1 hi, hres, by simp,
          fun j hj => by simp [hj.symm]⟩
  · exact absurd hheld hnot
  · obtain ⟨i, hv, _⟩ := hheld
    exact absurd hv (by simp [resetOp])

end Sys2Proof.Machine
end

section
/-! Configurations with one-bit masks and a SHIFT position that no key shares (R6 (a), (f), (h)): what the SHIFT bit shows
(R152), and that single-port updates give the matrix that REBUILD gives (R175). -/

namespace Sys2Proof.Machine

section OneBitMasks

variable {K : Keymap} {pos q : Position} {r : RowNum} {c : Nat}

theorem eq_of_oneBit {a b : Byte} (ha : oneBit a = true) (hb : oneBit b = true) (hac : a.getLsbD c = true)
    (hbc : b.getLsbD c = true) : a = b := by
  obtain ⟨i, _, hi⟩ := exists_getLsbD_of_oneBit ha
  obtain ⟨j, _, hj⟩ := exists_getLsbD_of_oneBit hb
  obtain rfl : c = i := by simpa [hi] using hac
  obtain rfl : c = j := by simpa [hj] using hbc
  exact BitVec.eq_of_getLsbD_eq fun k _ => by rw [hi, hj]

/-- A mapped table entry has a one-bit mask (R6 (a), (h)). -/
theorem oneBit_maskOf (hpos : K.wfPositions = true) (hspace : K.wfSpaceMask = true) (hp : pos ∈ K.tablePositions)
    (hu : unmapped pos = false) : oneBit (maskOf K pos) = true := by
  have hwf : K.wfPosition pos = true := List.all_eq_true.1 hpos pos hp
  simp only [Keymap.wfPosition, hu, Bool.false_or, Bool.and_eq_true, Bool.or_eq_true, beq_iff_eq] at hwf
  obtain ⟨_, hcol | hone⟩ := hwf
  · rw [maskOf_sentinel hcol]
    exact hspace
  · exact hone

/-- Two mapped table entries with a bit in common are the same place (R175). -/
theorem samePlace_of_common_bit (hpos : K.wfPositions = true) (hspace : K.wfSpaceMask = true)
    (hp : pos ∈ K.tablePositions) (hu : unmapped pos = false) (hq : q ∈ K.tablePositions) (hv : unmapped q = false)
    (hpb : KeyPlace K pos r c) (hqb : KeyPlace K q r c) : samePlace K pos q = true := by
  have hrow : rowOf pos = rowOf q := hpb.1.trans hqb.1.symm
  have hmask : maskOf K pos = maskOf K q :=
    eq_of_oneBit (oneBit_maskOf hpos hspace hp hu) (oneBit_maskOf hpos hspace hq hv) hpb.2 hqb.2
  simp [samePlace, hrow, hmask]

/-- A mapped table entry has no bit in common with the SHIFT position (R6 (f)). -/
theorem not_shiftPlace_of_keyPlace (hpos : K.wfPositions = true) (hshift : K.wfShiftPos = true)
    (hspace : K.wfSpaceMask = true) (hp : pos ∈ K.tablePositions) (hu : unmapped pos = false)
    (h : KeyPlace K pos r c) : ¬ShiftPlace K r c := by
  intro hsb
  simp only [Keymap.wfShiftPos, Bool.and_eq_true, List.all_eq_true] at hshift
  obtain ⟨⟨_, hone⟩, hunshared⟩ := hshift
  have hmask : maskOf K pos = maskOf K K.shiftPos := eq_of_oneBit (oneBit_maskOf hpos hspace hp hu) hone h.2 hsb.2
  simpa [hmask, h.1, hsb.1] using hunshared pos hp

end OneBitMasks

section Places

variable {s t : State} {r : RowNum} {c : Nat} {i : Fin 6} {x : Slot}

/-! ### The SHIFT bit -/

/-- A held key's position has no bit in common with the SHIFT position. -/
theorem not_shiftPlace_of_held (hpos : s.keymap.wfPositions = true) (hshift : s.keymap.wfShiftPos = true)
    (hspace : s.keymap.wfSpaceMask = true) (h : s.Inv) :
    (∃ j, (slot s.slots j).v = true ∧ KeyPlace s.keymap (slot s.slots j).pos r c) → ¬ShiftPlace s.keymap r c := by
  rintro ⟨j, hv, hk⟩
  obtain ⟨hp, hu⟩ := h.fromTables j hv
  exact not_shiftPlace_of_keyPlace hpos hshift hspace hp hu hk

/-- The SHIFT position shows `shift_eff` and nothing else (R25, R29). -/
theorem shiftPos_bits (hpos : s.keymap.wfPositions = true) (hshift : s.keymap.wfShiftPos = true)
    (hspace : s.keymap.wfSpaceMask = true) (h : s.Inv) :
    rowBits s.matrix (rowOf s.keymap.shiftPos) &&& maskOf s.keymap s.keymap.shiftPos =
      if shiftEff s.slots s.mod then maskOf s.keymap s.keymap.shiftPos else 0 := by
  have hrow : validRow (rowOf s.keymap.shiftPos) = true := by
    simp only [Keymap.wfShiftPos, Bool.and_eq_true] at hshift
    obtain ⟨⟨hrow, _⟩, _⟩ := hshift
    exact hrow
  refine BitVec.eq_of_getLsbD_eq fun c _ => ?_
  cases hc : (maskOf s.keymap s.keymap.shiftPos).getLsbD c with
  | false => cases shiftEff s.slots s.mod <;> simp [hc]
  | true =>
    have hplace : ShiftPlace s.keymap (rowOf s.keymap.shiftPos) c := ⟨rfl, hc⟩
    rw [BitVec.getLsbD_and, hc, Bool.and_true, Bool.eq_iff_iff, mirrors_bit h.mirrors hrow,
      or_iff_right fun hk => not_shiftPlace_of_held hpos hshift hspace h hk hplace, and_iff_left hplace]
    cases shiftEff s.slots s.mod <;> simp [hc]

/-! ### The incremental form -/

theorem placeHeld_iff {K : Keymap} {sl : Slots} {p : Position} :
    placeHeld K sl p = true ↔ ∃ j, (slot sl j).v = true ∧ samePlace K (slot sl j).pos p = true := by
  simp only [placeHeld, List.any_eq_true, Bool.and_eq_true]
  exact ⟨fun ⟨j, _, h⟩ => ⟨j, h⟩, fun ⟨j, h⟩ => ⟨j, mem_slotIdx j, h⟩⟩

theorem keyPlace_of_samePlace {K : Keymap} {p q : Position} (h : samePlace K p q = true) (hq : KeyPlace K q r c) :
    KeyPlace K p r c := by
  obtain ⟨hrow, hmask⟩ : rowOf p = rowOf q ∧ maskOf K p = maskOf K q := by simpa [samePlace] using h
  rwa [KeyPlace, hrow, hmask]

/-- The loop of R175 acts at the one slot that differs. -/
theorem foldl_incrementalKey_setSlot (K : Keymap) (sl : Slots) (m : Matrix) (i : Fin 6) (x : Slot) :
    slotIdx.foldl (incrementalKey K sl (setSlot sl i x)) m = incrementalKey K sl (setSlot sl i x) m i := by
  have hother : ∀ m j, j ≠ i → incrementalKey K sl (setSlot sl i x) m j = m := fun m j hj => by
    cases hv : (slot sl j).v <;> simp [incrementalKey, hj.symm, hv]
  have hloop : ∀ (l : List (Fin 6)), l.Nodup → ∀ m, l.foldl (incrementalKey K sl (setSlot sl i x)) m =
      if i ∈ l then incrementalKey K sl (setSlot sl i x) m i else m := by
    intro l
    induction l with
    | nil => simp
    | cons j l ih =>
      intro hnd m
      obtain ⟨hj, hl⟩ := List.nodup_cons.1 hnd
      rw [List.foldl_cons, ih hl]
      by_cases hji : j = i
      · subst hji
        simp [hj]
      · simp [hother m j hji, Ne.symm hji]
  rw [hloop slotIdx (by decide), if_pos (mem_slotIdx i)]

/-- Clause (a) of R175 in bits: the ASSERT of a key that fills a free slot. -/
theorem incrementalKey_filled_bit (h : s.Inv) (hi : (slot s.slots i).v = false) (hx : x.v = true) (hr : validRow r = true) :
    (rowBits (incrementalKey s.keymap s.slots (setSlot s.slots i x) s.matrix i) r).getLsbD c = true ↔
      (∃ j, (slot (setSlot s.slots i x) j).v = true ∧ KeyPlace s.keymap (slot (setSlot s.slots i x) j).pos r c) ∨
      (shiftEff s.slots s.mod = true ∧ ShiftPlace s.keymap r c) := by
  have hassert : incrementalKey s.keymap s.slots (setSlot s.slots i x) s.matrix i =
      assertBits s.keymap x.pos s.matrix := by simp [incrementalKey, hi, hx]
  rw [hassert, assertBits_bit _ _ hr, mirrors_bit h.mirrors hr,
    exists_filled hi hx (P := fun x => KeyPlace s.keymap x.pos r c), or_right_comm,
    or_comm (a := KeyPlace s.keymap x.pos r c)]

/-- Clause (b) of R175 in bits: the CLEAR of a key whose slot is freed, left out while a held key has the same place. -/
theorem incrementalKey_freed_bit (hpos : s.keymap.wfPositions = true) (hshift : s.keymap.wfShiftPos = true)
    (hspace : s.keymap.wfSpaceMask = true) (h : s.Inv) (hi : (slot s.slots i).v = true) (hx : x.v = false)
    (hr : validRow r = true) (hc : c < 8) :
    (rowBits (incrementalKey s.keymap s.slots (setSlot s.slots i x) s.matrix i) r).getLsbD c = true ↔
      (∃ j, (slot (setSlot s.slots i x) j).v = true ∧ KeyPlace s.keymap (slot (setSlot s.slots i x) j).pos r c) ∨
      (shiftEff s.slots s.mod = true ∧ ShiftPlace s.keymap r c) := by
  have hold := mirrors_bit h.mirrors hr c
  have hnew := exists_freed (sl := s.slots) (i := i) hx (P := fun x => KeyPlace s.keymap x.pos r c)
  cases hshared : placeHeld s.keymap (setSlot s.slots i x) (slot s.slots i).pos with
  | true =>
    have hkeep : incrementalKey s.keymap s.slots (setSlot s.slots i x) s.matrix i = s.matrix := by
      simp [incrementalKey, hi, hx, hshared]
    rw [hkeep, hold, hnew]
    refine or_congr_left ⟨fun ⟨j, hv, hk⟩ => ?_, fun ⟨j, _, hv, hk⟩ => ⟨j, hv, hk⟩⟩
    by_cases hji : j = i
    · subst hji
      obtain ⟨k, hvk, hsame⟩ := placeHeld_iff.1 hshared
      exact hnew.1 ⟨k, hvk, keyPlace_of_samePlace hsame hk⟩
    · exact ⟨j, hji, hv, hk⟩
  | false =>
    have hclear : incrementalKey s.keymap s.slots (setSlot s.slots i x) s.matrix i =
        clearBits s.keymap (slot s.slots i).pos s.matrix := by simp [incrementalKey, hi, hx, hshared]
    obtain ⟨hpi, hui⟩ := h.fromTables i hi
    rw [hclear, clearBits_bit _ _ hr hc, hold, hnew]
    constructor
    · rintro ⟨⟨j, hv, hk⟩ | hs, hnot⟩
      · exact .inl ⟨j, fun hji => hnot (hji ▸ hk), hv, hk⟩
      · exact .inr hs
    · rintro (⟨j, hji, hv, hk⟩ | ⟨he, hs⟩)
      · refine ⟨.inl ⟨j, hv, hk⟩, fun hki => ?_⟩
        obtain ⟨hpj, huj⟩ := h.fromTables j hv
        have hsame : samePlace s.keymap (slot s.slots j).pos (slot s.slots i).pos = true :=
          samePlace_of_common_bit hpos hspace hpj huj hpi hui hk hki
        have : placeHeld s.keymap (setSlot s.slots i x) (slot s.slots i).pos = true :=
          placeHeld_iff.2 ⟨j, by simpa [hji.symm] using hv, by simpa [hji.symm] using hsame⟩
        simp [hshared] at this
      · exact ⟨.inr ⟨he, hs⟩, fun hki => not_shiftPlace_of_held hpos hshift hspace h ⟨i, hi, hki⟩ hs⟩

/-- Clause (c) of R175 in bits: in a matrix of keys that share no bit with the SHIFT position, the SHIFT bit follows
`shift_eff`. -/
theorem incrementalShift_bit {K : Keymap} {before after : Bool} {m : Matrix} {keys : Prop} (hr : validRow r = true)
    (hc : c < 8) (hm : (rowBits m r).getLsbD c = true ↔ keys ∨ (before = true ∧ ShiftPlace K r c))
    (hkeys : keys → ¬ShiftPlace K r c) :
    (rowBits (incrementalShift K before after m) r).getLsbD c = true ↔ keys ∨ (after = true ∧ ShiftPlace K r c) := by
  have hplace : KeyPlace K K.shiftPos r c ↔ ShiftPlace K r c := Iff.rfl
  cases before <;> cases after
  · exact hm
  · refine (assertBits_bit K.shiftPos m hr c).trans ?_
    rw [hm, hplace]
    simp
  · refine (clearBits_bit K.shiftPos m hr hc).trans ?_
    rw [hm, hplace]
    simp only [true_and, Bool.false_eq_true, false_and, or_false]
    exact ⟨fun ⟨h, hnot⟩ => h.resolve_right hnot, fun h => ⟨.inl h, hkeys h⟩⟩
  · exact hm

theorem setSlot_self (sl : Slots) (i : Fin 6) : setSlot sl i (slot sl i) = sl :=
  slots_ext fun j => by
    rw [slot_setSlot]
    split
    · subst i; rfl
    · rfl

/-- Between two states with the invariant whose slots differ in one that was filled, freed or left, R175's updates lead from
the rows of the one to those of the other. -/
theorem incrementalMatrix_of_setSlot (hpos : s.keymap.wfPositions = true) (hshift : s.keymap.wfShiftPos = true)
    (hspace : s.keymap.wfSpaceMask = true) (hs : s.Inv) (ht : t.Inv) (hk : t.keymap = s.keymap)
    (hsl : t.slots = setSlot s.slots i x) (hx : x = slot s.slots i ∨ (slot s.slots i).v = !x.v) :
    t.matrix = incrementalMatrix s.keymap s.slots t.slots s.mod t.mod s.matrix := by
  refine matrix_ext_bit fun r hr c hc => ?_
  have hkeys := not_shiftPlace_of_held (r := r) (c := c) (hk ▸ hpos) (hk ▸ hshift) (hk ▸ hspace) ht
  rw [mirrors_bit ht.mirrors hr, incrementalMatrix, hk]
  rw [hk] at hkeys
  refine (incrementalShift_bit hr hc ?_ hkeys).symm
  rw [hsl, foldl_incrementalKey_setSlot]
  obtain rfl | hx := hx
  · rw [setSlot_self]
    have hkeep : incrementalKey s.keymap s.slots s.slots s.matrix i = s.matrix := by
      cases hv : (slot s.slots i).v <;> simp [incrementalKey, hv]
    rw [hkeep, mirrors_bit hs.mirrors hr]
  · cases hv : x.v <;> rw [hv] at hx
    · exact incrementalKey_freed_bit hpos hshift hspace hs hx hv hr hc
    · exact incrementalKey_filled_bit hs hx hv hr

/-- An event leaves every slot or fills or frees one. -/
theorem runEvent_setSlot (code : Code) (s : State) :
    ∃ i x, (runEvent code s).slots = setSlot s.slots i x ∧ (x = slot s.slots i ∨ (slot s.slots i).v = !x.v) := by
  obtain ⟨_, _, e⟩ | ⟨_, _, e⟩ | ⟨_, e⟩ | ⟨_, _, _, e⟩ | ⟨_, _, i, p, o, _, _, hi, _, _, _, _, e⟩ |
    ⟨_, _, i, hi, _, e⟩ := runEvent_effect code s <;> rw [e]
  · exact ⟨0, _, (setSlot_self s.slots 0).symm, .inl rfl⟩
  · exact ⟨0, _, (setSlot_self s.slots 0).symm, .inl rfl⟩
  · exact ⟨0, _, (setSlot_self s.slots 0).symm, .inl rfl⟩
  · exact ⟨0, _, (setSlot_self s.slots 0).symm, .inl rfl⟩
  · exact ⟨i, _, rfl, .inr hi⟩
  · exact ⟨i, _, rfl, .inr hi⟩

end Places

/-- Settles O50: the SHIFT position shows `shift_eff`, whose three cases these are. -/
theorem overrideForcesShiftBit : Obligations.OverrideForcesShiftBit := by
  intro s h hpos hshift hspace
  rw [shiftPos_bits hpos hshift hspace h]
  refine ⟨fun h1 => ?_, fun h1 => ⟨fun h0 => ?_, fun h0 => ?_⟩⟩
  · simp [shiftEff, force1_iff.2 h1]
  · simp [shiftEff, force1_false_iff.2 h1, force0_iff.2 h0]
  · rw [shiftEff_of_no_override (force1_false_iff.2 h1) (force0_false_iff.2 h0), shiftPhys]

/-- Settles O51: an event keeps the invariant and changes one slot at most. -/
theorem incrementalEqualsRebuild : Obligations.IncrementalEqualsRebuild := by
  intro s t code h hpos hshift hspace hexec
  cases hexec
  obtain ⟨i, x, hsl, hx⟩ := runEvent_setSlot code s
  exact incrementalMatrix_of_setSlot hpos hshift hspace h (runEvent_inv code h) (runEvent_keymap_inputs code s).1 hsl hx

end Sys2Proof.Machine
end

section
/-! The Pressed-Key Set as a set (10_state.md R23 (c), D8): an operation sees of the slots the held keys alone, so that two
states with the same held keys step alike. -/

namespace Sys2Proof.Machine

section HeldKeys

variable {sl a b : Slots} {i : Fin 6} {x : Slot} {id : KeyId} {pos : Position} {ovr : Ovr} {K : Keymap} {md : BitVec 4}

/-- What a slot contributes to the held keys. -/
def heldKey (x : Slot) : Option (KeyId × Position × Ovr) := if x.v then some (x.id, x.pos, x.ovr) else none

theorem heldKeys_eq (sl : Slots) : heldKeys sl = slotIdx.filterMap fun i => heldKey (slot sl i) := rfl

theorem heldKey_eq_some_iff {k : KeyId × Position × Ovr} :
    heldKey x = some k ↔ x.v = true ∧ (x.id, x.pos, x.ovr) = k := by
  cases hv : x.v <;> simp [heldKey, hv]

/-- A property of identity, position and override holds of some held key in the list iff it does of some valid slot. -/
theorem exists_heldKeys {P : KeyId → Position → Ovr → Prop} :
    (∃ k ∈ heldKeys sl, P k.1 k.2.1 k.2.2) ↔
      ∃ i, (slot sl i).v = true ∧ P (slot sl i).id (slot sl i).pos (slot sl i).ovr := by
  simp only [heldKeys_eq, List.mem_filterMap, heldKey_eq_some_iff]
  constructor
  · rintro ⟨_, ⟨i, _, hv, rfl⟩, hP⟩
    exact ⟨i, hv, hP⟩
  · rintro ⟨i, hv, hP⟩
    exact ⟨_, ⟨i, mem_slotIdx i, hv, rfl⟩, hP⟩

/-- So two slot files with the same held keys have such a slot both or neither. -/
theorem exists_held_congr (h : (heldKeys a).Perm (heldKeys b)) (P : KeyId → Position → Ovr → Prop) :
    (∃ i, (slot a i).v = true ∧ P (slot a i).id (slot a i).pos (slot a i).ovr) ↔
      ∃ i, (slot b i).v = true ∧ P (slot b i).id (slot b i).pos (slot b i).ovr := by
  rw [← exists_heldKeys, ← exists_heldKeys]
  simp only [h.mem_iff]

theorem held_congr (h : (heldKeys a).Perm (heldKeys b)) : Held a id ↔ Held b id :=
  exists_held_congr h fun k _ _ => k = id

theorem full_iff_length : Full sl ↔ (heldKeys sl).length = 6 := by
  have hcount : (heldKeys sl).length = pksCount sl := by
    rw [heldKeys_eq, List.length_filterMap_eq_countP, pksCount]
    refine List.countP_congr fun i _ => ?_
    cases hv : (slot sl i).v <;> simp [heldKey, hv]
  rw [hcount, pksCount_eq_six_iff, Full]

theorem full_congr (h : (heldKeys a).Perm (heldKeys b)) : Full a ↔ Full b := by
  rw [full_iff_length, full_iff_length, h.length_eq]

/-- REBUILD sees the held keys alone (R174). -/
theorem rebuiltMatrix_congr (h : (heldKeys a).Perm (heldKeys b)) : rebuiltMatrix K a md = rebuiltMatrix K b md := by
  have hshift : shiftEff a md = shiftEff b md := shiftEff_congr fun o _ => exists_held_congr h fun _ _ o' => o' = o
  refine matrix_ext_bit fun r hr c _ => ?_
  rw [rebuiltMatrix_bit hr, rebuiltMatrix_bit hr, hshift, exists_held_congr h fun _ p _ => KeyPlace K p r c]

/-! ### The held keys after one slot is written -/

/-- A write of a free slot adds what the new slot holds. -/
theorem heldKeys_filled (hi : (slot sl i).v = false) :
    (heldKeys (setSlot sl i ⟨true, ovr, pos, id⟩)).Perm ((id, pos, ovr) :: heldKeys sl) := by
  have hfirst : slotIdx.Perm (i :: slotIdx.erase i) := List.perm_cons_erase (mem_slotIdx i)
  have hnew := hfirst.filterMap fun j => heldKey (slot (setSlot sl i ⟨true, ovr, pos, id⟩) j)
  have hold := hfirst.filterMap fun j => heldKey (slot sl j)
  have hrest : ((slotIdx.erase i).filterMap fun j => heldKey (slot (setSlot sl i ⟨true, ovr, pos, id⟩) j)) =
      (slotIdx.erase i).filterMap fun j => heldKey (slot sl j) := by
    refine List.filterMap_congr fun j hj => ?_
    have hne : i ≠ j := fun e => by
      subst e
      exact absurd hj (List.Nodup.not_mem_erase (by decide))
    rw [slot_setSlot, if_neg hne]
  rw [List.filterMap_cons_some (b := (id, pos, ovr)) (by simp [heldKey]), hrest] at hnew
  rw [List.filterMap_cons_none (by simp [heldKey, hi])] at hold
  exact hnew.trans (hold.symm.cons _)

/-- In a set without duplicates the held keys after a break are those of the other identities. -/
theorem heldKeys_freed (hd : Distinct sl) (hv : (slot sl i).v = true) (hid : (slot sl i).id = id) :
    heldKeys (setSlot sl i (freed (slot sl i))) = (heldKeys sl).filter fun k => k.1 ≠ id := by
  rw [heldKeys_eq, heldKeys_eq, List.filter_filterMap]
  refine List.filterMap_congr fun j _ => ?_
  rw [slot_setSlot]
  by_cases hij : i = j
  · subst hij
    simp [heldKey, Option.filter, hv, hid]
  · cases hvj : (slot sl j).v with
    | false => simp [heldKey, hij, hvj]
    | true =>
      have hne : (slot sl j).id ≠ id := fun e => hij (hd j i hvj hv (e.trans hid.symm)).symm
      simp [heldKey, Option.filter, hij, hvj, hne]

end HeldKeys

/-! ### Two states with the same held keys -/

section SameSet

variable {s t : State} (h : SameSet s t)

include h

theorem SameSet.setSlots {a b : Slots} (hk : (heldKeys a).Perm (heldKeys b)) : SameSet (s.setSlots a) (t.setSlots b) :=
  ⟨hk, h.matrix, h.mod, h.keymap, h.inputs, h.out⟩

theorem SameSet.setMod (md : BitVec 4) : SameSet (s.setMod md) (t.setMod md) :=
  ⟨h.keys, h.matrix, rfl, h.keymap, h.inputs, h.out⟩

theorem SameSet.setMatrix (m : Matrix) : SameSet (s.setMatrix m) (t.setMatrix m) :=
  ⟨h.keys, rfl, h.mod, h.keymap, h.inputs, h.out⟩

theorem SameSet.setInputs (l : List Activity) : SameSet (s.setInputs l) (t.setInputs l) :=
  ⟨h.keys, h.matrix, h.mod, h.keymap, rfl, h.out⟩

theorem SameSet.setOut (o : Output) : SameSet (s.setOut o) (t.setOut o) :=
  ⟨h.keys, h.matrix, h.mod, h.keymap, h.inputs, rfl⟩

theorem SameSet.report (st : EvStat) (q : Option ScQuery) : SameSet (s.report st q) (t.report st q) := h.setOut _

theorem SameSet.rebuild : SameSet s.rebuild t.rebuild := by
  have hm : rebuiltMatrix s.keymap s.slots s.mod = rebuiltMatrix t.keymap t.slots t.mod := by
    rw [h.keymap, h.mod, rebuiltMatrix_congr h.keys]
  rw [State.rebuild, State.rebuild, hm]
  exact h.setMatrix _

theorem SameSet.resetOp : SameSet (resetOp s) (resetOp t) :=
  (((h.setSlots (List.Perm.refl _)).setMod _).setMatrix _).setOut _

theorem SameSet.shiftKey (m : ShiftKey) (d : Bool) : SameSet (shiftKey m d s) (shiftKey m d t) := by
  rw [Machine.shiftKey, Machine.shiftKey, h.mod]
  exact (h.setMod _).rebuild.report _ _

theorem SameSet.ctrlKey (m : CtrlKey) (d : Bool) : SameSet (ctrlKey m d s) (ctrlKey m d t) := by
  rw [Machine.ctrlKey, Machine.ctrlKey, h.mod]
  exact (h.setMod _).report _ _

/-- The two makes are dropped both for the same cause, or each fills its own lowest free slot with the same key. -/
theorem SameSet.press (id : KeyId) (pos : Position) (ovr : Ovr) (q : Option ScQuery) :
    SameSet (press id pos ovr q s) (press id pos ovr q t) := by
  by_cases hheld : Held s.slots id
  · rw [press_of_held hheld, press_of_held ((held_congr h.keys).1 hheld)]
    exact h.report _ _
  · have hheld' : ¬Held t.slots id := fun ht => hheld ((held_congr h.keys).2 ht)
    by_cases hfull : Full s.slots
    · rw [press_of_full hheld hfull, press_of_full hheld' ((full_congr h.keys).1 hfull)]
      exact h.report _ _
    · obtain ⟨i, hi⟩ := exists_lowestFree hfull
      obtain ⟨j, hj⟩ := exists_lowestFree fun ht => hfull ((full_congr h.keys).2 ht)
      rw [press_of_free hheld hi, press_of_free hheld' hj]
      have hkeys := (heldKeys_filled (id := id) (pos := pos) (ovr := ovr) hi.1).trans
        ((h.keys.cons _).trans (heldKeys_filled hj.1).symm)
      exact (h.setSlots hkeys).rebuild.report _ _

theorem SameSet.specialMake (code : Code) : SameSet (specialMake code s) (specialMake code t) := by
  rw [Machine.specialMake, Machine.specialMake, h.keymap]
  cases lookupSpecial t.keymap (spKey code) with
  | none => exact h.report _ _
  | some pos =>
    cases hu : unmapped pos
    · simpa [hu] using h.press _ _ _ _
    · simpa [hu] using h.report _ _

theorem SameSet.query (code : Code) : s.query code = t.query code := by
  rw [State.query, State.query, h.mod]

theorem SameSet.printMake (code : Code) : SameSet (printMake code s) (printMake code t) := by
  rw [Machine.printMake, Machine.printMake, h.keymap, h.query]
  cases sc2ascii t.keymap (t.query code) with
  | none => exact h.report _ _
  | some a =>
    cases ha : lookupAscii t.keymap a with
    | none => simpa [ha] using h.report _ _
    | some pos => simpa [ha] using h.press _ _ _ _

/-- The two breaks find nothing both, or each frees its own slot of the same identity. -/
theorem SameSet.keyBreak (hs : Distinct s.slots) (ht : Distinct t.slots) (id : KeyId) :
    SameSet (keyBreak id s) (keyBreak id t) := by
  by_cases hheld : Held s.slots id
  · obtain ⟨j, hvj, hj⟩ := (held_congr h.keys).1 hheld
    obtain ⟨i, hvi, hi⟩ := hheld
    rw [keyBreak_of_held hs hvi hi, keyBreak_of_held ht hvj hj]
    refine (h.setSlots ?_).rebuild.report _ _
    rw [heldKeys_freed hs hvi hi, heldKeys_freed ht hvj hj]
    exact h.keys.filter _
  · rw [keyBreak_of_absent hheld, keyBreak_of_absent fun ht => hheld ((held_congr h.keys).2 ht)]
    exact h.report _ _

theorem SameSet.runEvent (hs : Distinct s.slots) (ht : Distinct t.slots) (code : Code) :
    SameSet (runEvent code s) (runEvent code t) := by
  rw [Machine.runEvent, Machine.runEvent, h.keymap]
  cases lookupMod t.keymap (keyId code) with
  | some l =>
    cases l
    · exact h.shiftKey _ _
    · exact h.shiftKey _ _
    · exact h.ctrlKey _ _
    · exact h.ctrlKey _ _
    · exact h.report _ _
  | none =>
    cases hr : rel code with
    | true => simpa [hr] using h.keyBreak hs ht _
    | false =>
      cases hsp : lookupSpecial t.keymap (spKey code) with
      | some p => simpa [hr, hsp] using h.specialMake _
      | none => simpa [hr, hsp] using h.printMake _

/-- Every activity keeps two states alike (R9, R172, R200). -/
theorem SameSet.exec_instr (hs : Distinct s.slots) (ht : Distinct t.slots) (a : Activity) :
    ∃ s' t', exec a.instr s = .next s' ∧ exec a.instr t = .next t' ∧ SameSet s' t' := by
  cases a with
  | event code => exact ⟨_, _, exec_event s code, exec_event t code, h.runEvent hs ht code⟩
  | read row => exact ⟨_, _, exec_rd s row, exec_rd t row, by rw [h.matrix]; exact h.setOut _⟩
  | reset d => exact ⟨_, _, exec_rst s, exec_rst t, h.resetOp⟩

end SameSet

/-- Settles O52: both states take the same activity, whose operation keeps them alike. -/
theorem slotPlacementUnobservable : Obligations.SlotPlacementUnobservable := by
  intro s t h hs ht
  cases hin : t.inputs with
  | nil => exact ⟨_, _, step_idle (h.inputs.trans hin), step_idle hin, h.setOut _⟩
  | cons a rest =>
    rw [step_cons (h.inputs.trans hin), step_cons hin]
    exact (h.setInputs rest).exec_instr hs ht a

end Sys2Proof.Machine
end

section
/-! The lookups' answers (40_keymap_tables.md R111 to R115) and the primitives of the Pressed-Key Set and the matrix file
(R131, R172 to R174). -/

namespace Sys2Proof.Machine

section Answers

variable {K : Keymap}

/-- A search by key answers the lowest entry with the key. -/
theorem find?_lowest {α β : Type} [BEq β] [LawfulBEq β] (f : α → β) {l : List α} {b : β} {i : Nat} (hi : i < l.length)
    (hb : f l[i] = b) (hlow : ∀ (j : Nat) (_ : j < i), f l[j] ≠ b) : l.find? (fun e => f e == b) = some l[i] :=
  List.find?_eq_some_iff_getElem.2 ⟨beq_iff_eq.2 hb, i, hi, rfl, fun j hj => by simp [hlow j hj]⟩

theorem lookupSpecial_of_lowest {k : SpKey} {i : Nat} (hi : i < K.romSpecial.length)
    (hk : (K.romSpecial[i]).extractLsb' 8 15 = k)
    (hlow : ∀ (j : Nat) (_ : j < i), (K.romSpecial[j]).extractLsb' 8 15 ≠ k) :
    lookupSpecial K k = some ((K.romSpecial[i]).extractLsb' 0 8) := by
  rw [lookupSpecial, find?_lowest specialKey hi hk hlow]
  rfl

theorem lookupMod_of_lowest {id : KeyId} {i : Nat} (hi : i < K.romMod.length) (hid : (K.romMod[i]).extractLsb' 0 13 = id)
    (hlow : ∀ (j : Nat) (_ : j < i), (K.romMod[j]).extractLsb' 0 13 ≠ id) :
    lookupMod K id = some (modLine K.romMod[i]) := by
  rw [lookupMod, find?_lowest modId hi hid hlow]
  rfl

theorem sc2ascii_of_lowest {q : ScQuery} {i : Nat} (hi : i < K.sc2ascii.length) (hq : (K.sc2ascii[i]).1 = q)
    (hlow : ∀ (j : Nat) (_ : j < i), (K.sc2ascii[j]).1 ≠ q) : sc2ascii K q = some (K.sc2ascii[i]).2 := by
  rw [sc2ascii, find?_lowest Prod.fst hi hq hlow]
  rfl

theorem lookupSpecial_of_absent {k : SpKey} (h : ∀ e ∈ K.romSpecial, e.extractLsb' 8 15 ≠ k) :
    lookupSpecial K k = none := by
  rw [lookupSpecial, List.find?_eq_none.2 fun e he => by simpa [specialKey] using h e he]
  rfl

theorem lookupMod_of_absent {id : KeyId} (h : ∀ e ∈ K.romMod, e.extractLsb' 0 13 ≠ id) : lookupMod K id = none := by
  rw [lookupMod, List.find?_eq_none.2 fun e he => by simpa [modId] using h e he]
  rfl

theorem sc2ascii_of_absent {q : ScQuery} (h : ∀ e ∈ K.sc2ascii, e.1 ≠ q) : sc2ascii K q = none := by
  rw [sc2ascii, List.find?_eq_none.2 fun e he => by simpa using h e he]
  rfl

/-- LINE codes 0 to 3 are the four modifier lines, the others ALT (R87, R112). -/
theorem modLine_of_code (e : BitVec 16) :
    (e.extractLsb' 13 3 = 0 → modLine e = .ls) ∧ (e.extractLsb' 13 3 = 1 → modLine e = .rs) ∧
    (e.extractLsb' 13 3 = 2 → modLine e = .lc) ∧ (e.extractLsb' 13 3 = 3 → modLine e = .rc) ∧
    (4 ≤ (e.extractLsb' 13 3).toNat → modLine e = .alt) := by
  rw [modLine]
  generalize e.extractLsb' 13 3 = code
  revert code
  decide

theorem lookupOvr_of_out_of_range {a : Byte} (h : a.toNat < 0x20 ∨ 0x7E < a.toNat) : lookupOvr K a = 0 :=
  dif_neg (by omega)

theorem lookupOvr_of_in_range {a : Byte} (h : 0x20 ≤ a.toNat ∧ a.toNat ≤ 0x7E) :
    lookupOvr K a = if (K.romOvr[a.toNat - 0x20]).getLsbD 1 then K.romOvr[a.toNat - 0x20] else 0 :=
  dif_pos h

theorem resolve_of_special {code : Code} {sh ct : Bool} {p : Position} (h : lookupSpecial K (spKey code) = some p) :
    resolve K code sh ct = (if unmapped p then none else some (p, 0)) ∧ resolveQuery K code sh ct = none := by
  simp [resolve, resolveQuery, h]

theorem resolve_of_ascii {code : Code} {sh ct : Bool} (h : lookupSpecial K (spKey code) = none) :
    resolve K code sh ct =
      ((sc2ascii K ⟨spKey code, sh, ct⟩).bind fun a => (lookupAscii K a).map fun p => (p, lookupOvr K a)) ∧
    resolveQuery K code sh ct = some ⟨spKey code, sh, ct⟩ := by
  simp only [resolve, resolveQuery, h, and_true]
  cases sc2ascii K ⟨spKey code, sh, ct⟩ with
  | none => rfl
  | some a => cases ha : lookupAscii K a <;> simp [ha]

end Answers

/-- Settles O12: the search of the special table answers its lowest entry with the key. -/
theorem lookupSpecialAnswer : Obligations.LookupSpecialAnswer := by
  intro s k
  simp only [exec_lookupSpecial]
  refine ⟨fun i hi hk hlow => ?_, fun habs => ?_⟩
  · rw [lookupSpecial_of_lowest hi hk hlow]
  · rw [lookupSpecial_of_absent habs]

/-- Settles O13: the search of the modifier table answers the line of its lowest entry with the identity. -/
theorem lookupModAnswer : Obligations.LookupModAnswer := by
  intro s id
  simp only [exec_lookupMod]
  refine ⟨fun i hi hid hlow => ⟨modLine s.keymap.romMod[i], ?_, modLine_of_code _⟩, fun habs => ?_⟩
  · rw [lookupMod_of_lowest hi hid hlow]
  · rw [lookupMod_of_absent habs]

/-- Settles O14: an entry is answered as it is when its EN bit is set, and as 00 otherwise. -/
theorem lookupOvrAnswer : Obligations.LookupOvrAnswer := by
  intro s a
  simp only [exec_lookupOvr]
  refine ⟨fun hout => ?_, fun hin => ⟨fun he => ?_, fun he => ?_, fun he => ?_⟩⟩
  · rw [lookupOvr_of_out_of_range hout]
  · rw [lookupOvr_of_in_range hin, he]; rfl
  · rw [lookupOvr_of_in_range hin, he]; rfl
  · rw [lookupOvr_of_in_range hin]
    obtain he | he := he <;> rw [he] <;> rfl

/-- Settles O15: the operands stand on the port, and the list's first entry for them is the answer. -/
theorem sc2asciiAnswer : Obligations.Sc2asciiAnswer :=
  fun s k sh ct => ⟨sc2ascii s.keymap ⟨k, sh, ct⟩, exec_sc2ascii s k sh ct, fun _ => sc2ascii_of_lowest,
    sc2ascii_of_absent⟩

/-- Settles O16: a special entry decides at once and asks nobody; without one the question is asked and the two lookups of
the ASCII path decide. -/
theorem resolveAnswer : Obligations.ResolveAnswer := by
  intro s code
  rw [exec_resolve]
  refine ⟨fun hs => ?_, fun p hs hp => ?_, fun hs => ?_⟩
  · obtain ⟨hr, hq⟩ := resolve_of_special (sh := shiftPhys s.mod) (ct := ctrlDown s.mod) hs
    rw [hr, hq]
    rfl
  · obtain ⟨hr, hq⟩ := resolve_of_special (sh := shiftPhys s.mod) (ct := ctrlDown s.mod) hs
    rw [hr, hq, if_neg (mt unmapped_iff.1 hp)]
    rfl
  · obtain ⟨hr, hq⟩ := resolve_of_ascii (sh := shiftPhys s.mod) (ct := ctrlDown s.mod) hs
    rw [hr, hq]
    refine ⟨_, rfl, fun hnone => by rw [hnone]; rfl, fun a ha => ⟨fun hnone => ?_, fun p hp => ?_⟩⟩
    · rw [ha, Option.bind_some, hnone]; rfl
    · rw [ha, Option.bind_some, hp]; rfl

section PksAdd

variable {sl : Slots} {id : KeyId} {pos : Position} {ovr : Ovr} {i : Fin 6}

theorem pksAdd_of_held (h : Held sl id) : pksAdd sl id pos ovr = (.present, sl) := by
  rw [pksAdd, if_pos ((pksContains_iff_held id).2 h)]

theorem pksAdd_of_full (h : ¬Held sl id) (hf : Full sl) : pksAdd sl id pos ovr = (.full, sl) := by
  rw [pksAdd, if_neg (mt (pksContains_iff_held id).1 h), findFree_none.2 hf]

theorem pksAdd_of_free (h : ¬Held sl id) (hf : LowestFree sl i) :
    pksAdd sl id pos ovr = (.added, setSlot sl i ⟨true, ovr, pos, id⟩) := by
  rw [pksAdd, if_neg (mt (pksContains_iff_held id).1 h), findFree_eq_some_iff.2 hf]

end PksAdd

/-- Settles O18: ADD tests the presence, then the capacity, and takes the slot that the search for a free one finds. -/
theorem addAnswerAndSlots : Obligations.AddAnswerAndSlots := by
  intro s id pos ovr
  simp only [exec_add]
  refine ⟨fun h => ?_, fun h hf => ?_, fun i h hf => ?_⟩
  · rw [pksAdd_of_held h]; rfl
  · rw [pksAdd_of_full h hf]; rfl
  · rw [pksAdd_of_free h hf]

/-- Settles O24: RD shows `rowBits`, which is the register in rows 1 to 8 and 0x00 in the others. -/
theorem readReturnsRow : Obligations.ReadReturnsRow := by
  intro s row
  rw [exec_rd]
  refine ⟨fun hin => ?_, fun hout => ?_⟩
  · rw [rowBits, dif_pos hin]
  · rw [rowBits_invalid (validRow_eq_false hout)]

/-- Settles O25: CLEARALL writes the cleared file, whose rows all read 0x00. -/
theorem clearAllZeroesEveryRow : Obligations.ClearAllZeroesEveryRow :=
  fun s => ⟨_, exec_clearAll s, rowBits_cleared, rfl, rfl, rfl, rfl⟩

/-- Settles O26: REBUILD writes the rebuilt matrix, whose bits `rebuiltMatrix_bit` gives whatever stood there before. -/
theorem rebuildSetsExactlyTheHeldBits : Obligations.RebuildSetsExactlyTheHeldBits :=
  fun s => ⟨_, exec_rebuild s, fun _ c h1 h8 => rebuiltMatrix_bit (validRow_iff.2 ⟨h1, h8⟩) c, rfl, rfl, rfl, rfl⟩

/-- Settles O45: RST writes the empty set, MOD zero and the cleared file, whatever stood there, so a second RST writes the
same. -/
theorem resetState : Obligations.ResetState :=
  fun s => ⟨resetOp s, exec_rst s, slot_pksClear, rfl, rowBits_cleared, rfl, rfl, rfl, rfl⟩

/-- Settles O46: the set that RST leaves holds no identity. -/
theorem breakAfterResetIsNotHeld : Obligations.BreakAfterResetIsNotHeld := by
  intro s t code hrst hmod hrel
  cases hrst
  have hnot : ¬Held (resetOp s).slots (keyId code) := fun ⟨i, hv, _⟩ => by simp [resetOp] at hv
  exact exec_break_of_not_held hmod hnot rfl hrel

end Sys2Proof.Machine
end

section
/-! The event operations (42_interpreter.md): the shift keys (R141, R142), the alt keys (R145), the makes (R146, R147, R150)
and breaks (R148) of a key, and what events do to MOD and ask of the collaborator (R24, R114). -/

namespace Sys2Proof.Machine

section Bits

variable {s t : State} {r : RowNum} {c : Nat} {i : Fin 6} {x : Slot} {K : Keymap} {sl : Slots}

/-- Outside the SHIFT position, two states that mirror show the same bit when the same bit belongs to a held key (R29). -/
theorem bit_eq_of_mirrors (hs : s.Mirrors) (ht : t.Mirrors) (hk : t.keymap = s.keymap) (hnot : ¬ShiftPlace s.keymap r c)
    (hkeys : (∃ j, (slot t.slots j).v = true ∧ KeyPlace s.keymap (slot t.slots j).pos r c) ↔
      ∃ j, (slot s.slots j).v = true ∧ KeyPlace s.keymap (slot s.slots j).pos r c) :
    (rowBits t.matrix r).getLsbD c = (rowBits s.matrix r).getLsbD c := by
  cases hr : validRow r with
  | false => rw [rowBits_invalid hr, rowBits_invalid hr]
  | true =>
    rw [Bool.eq_iff_iff, mirrors_bit ht hr, mirrors_bit hs hr, hk, hkeys]
    simp [hnot]

/-! ### Shift keys -/

theorem writeLine_shift_getLsbD (m : ShiftKey) (md : BitVec 4) (down : Bool) (j : Nat) :
    (writeLine md (shiftLine m) down).getLsbD j = if j = (if m = .left then 0 else 1) then down else md.getLsbD j := by
  cases m with
  | left => exact writeLine_getLsbD (i := 0) rfl md down j
  | right => exact writeLine_getLsbD (i := 1) rfl md down j

theorem shiftKey_mirrors (m : ShiftKey) (down : Bool) (s : State) : (shiftKey m down s).Mirrors :=
  rebuild_mirrors (s.setMod (writeLine s.mod (shiftLine m) down))

/-- A shift key changes no bit outside the SHIFT position. -/
theorem shiftKey_other_bit (m : ShiftKey) (down : Bool) (hs : s.Mirrors) (hnot : ¬ShiftPlace s.keymap r c) :
    (rowBits (shiftKey m down s).matrix r).getLsbD c = (rowBits s.matrix r).getLsbD c :=
  bit_eq_of_mirrors hs (shiftKey_mirrors m down s) rfl hnot Iff.rfl

/-- SHIFT is shown as long as the other shift key is down and no key forces 0, or a key forces 1 (R142, D14). -/
theorem shiftEff_of_other_shift {m : ShiftKey} {md : BitVec 4} {down : Bool}
    (h : md.getLsbD (if m = .left then 1 else 0) = true ∧ force0 sl = false ∨ force1 sl = true) :
    shiftEff sl (writeLine md (shiftLine m) down) = true := by
  cases h1 : force1 sl with
  | true => simp [shiftEff, h1]
  | false =>
    obtain ⟨hother, h0⟩ : md.getLsbD (if m = .left then 1 else 0) = true ∧ force0 sl = false := by simpa [h1] using h
    rw [shiftEff_of_no_override h1 h0, shiftPhys, writeLine_shift_getLsbD, writeLine_shift_getLsbD]
    cases m <;> simp at hother ⊢ <;> simp [hother]

/-! ### A key that enters or leaves -/

/-- In a state that mirrored, a key that fills a free slot adds its bits and no other outside the SHIFT position. -/
theorem filled_bit {pos : Position} {ovr : Ovr} {id : KeyId} (hs : s.Mirrors) (hi : (slot s.slots i).v = false)
    (hr : validRow r = true) (hnot : ¬ShiftPlace s.keymap r c) :
    (rowBits (s.setSlots (setSlot s.slots i ⟨true, ovr, pos, id⟩)).rebuild.matrix r).getLsbD c = true ↔
      (rowBits s.matrix r).getLsbD c = true ∨ KeyPlace s.keymap pos r c := by
  rw [mirrors_bit (rebuild_mirrors _) hr, mirrors_bit hs hr]
  simp only [State.rebuild_slots, State.setSlots_slots, State.rebuild_keymap, State.setSlots_keymap, hnot, and_false,
    or_false]
  rw [exists_filled hi rfl (P := fun x => KeyPlace s.keymap x.pos r c), or_comm]

/-- In a state that mirrored, a key that leaves changes no bit outside its position and the SHIFT position. -/
theorem freed_other_bit (hs : s.Mirrors) (hx : x.v = false) (hkey : ¬KeyPlace s.keymap (slot s.slots i).pos r c)
    (hnot : ¬ShiftPlace s.keymap r c) :
    (rowBits (s.setSlots (setSlot s.slots i x)).rebuild.matrix r).getLsbD c = (rowBits s.matrix r).getLsbD c := by
  refine bit_eq_of_mirrors hs (rebuild_mirrors _) rfl hnot
    ((exists_freed hx (P := fun x => KeyPlace s.keymap x.pos r c)).trans ?_)
  refine ⟨fun ⟨j, _, h⟩ => ⟨j, h⟩, fun ⟨j, hv, hk⟩ => ⟨j, ?_, hv, hk⟩⟩
  rintro rfl
  exact hkey hk

/-- The bits of a key that leaves stay while another held key has its row and mask. -/
theorem freed_shared_bit {j : Fin 6} (hx : x.v = false) (hj : j ≠ i) (hv : (slot s.slots j).v = true)
    (hr : validRow r = true) (hk : KeyPlace s.keymap (slot s.slots j).pos r c) :
    (rowBits (s.setSlots (setSlot s.slots i x)).rebuild.matrix r).getLsbD c = true :=
  (mirrors_bit (rebuild_mirrors _) hr c).2
    (.inl ((exists_freed hx (P := fun x => KeyPlace s.keymap x.pos r c)).2 ⟨j, hj, hv, hk⟩))

/-- A free slot rewritten but left free holds no key before and after. -/
theorem heldKeys_of_free (hi : (slot sl i).v = false) (hx : x.v = false) : heldKeys (setSlot sl i x) = heldKeys sl := by
  rw [heldKeys_eq, heldKeys_eq]
  refine List.filterMap_congr fun j _ => ?_
  rw [slot_setSlot]
  by_cases hij : i = j
  · subst hij
    simp [heldKey, hi, hx]
  · rw [if_neg hij]

end Bits

section Makes

variable {s : State} {code : Code} {pos : Position}

theorem specialMake_of_unmapped (h : lookupSpecial s.keymap (spKey code) = some 0xFF) :
    specialMake code s = s.report .unmapped none := by
  rw [specialMake, h]
  rfl

theorem specialMake_of_mapped (h : lookupSpecial s.keymap (spKey code) = some pos) (hp : pos ≠ 0xFF) :
    specialMake code s = press (keyId code) pos 0 none s := by
  simp only [specialMake, h, if_neg (mt unmapped_iff.1 hp)]
  rfl

theorem printMake_of_no_answer (h : sc2ascii s.keymap (s.query code) = none) :
    printMake code s = s.report .unmapped (some (s.query code)) := by
  rw [printMake, h]

theorem printMake_of_no_position {a : Byte} (h : sc2ascii s.keymap (s.query code) = some a)
    (ha : lookupAscii s.keymap a = none) : printMake code s = s.report .unmapped (some (s.query code)) := by
  simp only [printMake, h, ha]

theorem printMake_of_mapped {a : Byte} (h : sc2ascii s.keymap (s.query code) = some a)
    (ha : lookupAscii s.keymap a = some pos) :
    printMake code s = press (keyId code) pos (lookupOvr s.keymap a) (some (s.query code)) s := by
  simp only [printMake, h, ha]

/-- The end of a make shows the question that the make asked, and no other. -/
theorem press_sc (id : KeyId) (pos : Position) (ovr : Ovr) (q : Option ScQuery) (s : State) :
    (press id pos ovr q s).out.sc = q := by
  obtain ⟨_, e⟩ | ⟨_, _, e⟩ | ⟨_, _, _, _, e⟩ := press_cases id pos ovr q s <;> rw [e] <;> rfl

theorem specialMake_sc (code : Code) (s : State) : (specialMake code s).out.sc = none := by
  obtain e | ⟨_, _, _, e⟩ := specialMake_cases code s <;> rw [e]
  · rfl
  · exact press_sc _ _ _ _ _

theorem printMake_sc (code : Code) (s : State) : (printMake code s).out.sc = some (s.query code) := by
  obtain e | ⟨_, _, _, _, e⟩ := printMake_cases code s <;> rw [e]
  · rfl
  · exact press_sc _ _ _ _ _

theorem keyBreak_sc (id : KeyId) (s : State) : (keyBreak id s).out.sc = none := by
  obtain ⟨_, e⟩ | ⟨_, _, _, e⟩ := keyBreak_cases id s <;> rw [e] <;> rfl

theorem runEvent_print (hmk : KeyMake s.keymap code) (hs : lookupSpecial s.keymap (spKey code) = none) :
    runEvent code s = printMake code s := by
  simp [runEvent, hmk.1, hmk.2, hs]

end Makes

/-- Settles O29: `shiftKey` with the key down, whose rebuild mirrors the new MOD. -/
theorem shiftMakeSetsItsBit : Obligations.ShiftMakeSetsItsBit :=
  fun s m => ⟨_, exec_shiftMk s m, writeLine_shift_getLsbD m s.mod true, rfl, rfl, rfl, rfl, shiftKey_mirrors m true s,
    fun hs _ _ => shiftKey_other_bit m true hs⟩

/-- Settles O30: `shiftKey` with the key up; the SHIFT bit of the rebuild is the new `shift_eff`. -/
theorem shiftBreakClearsItsBit : Obligations.ShiftBreakClearsItsBit :=
  fun s m => ⟨_, exec_shiftBr s m, writeLine_shift_getLsbD m s.mod false, rfl, rfl, rfl, rfl, shiftKey_mirrors m false s,
    fun _ c h1 h8 hplace hother => (mirrors_bit (shiftKey_mirrors m false s) (validRow_iff.2 ⟨h1, h8⟩) c).2
      (.inr ⟨shiftEff_of_other_shift hother, hplace⟩),
    fun hs _ _ => shiftKey_other_bit m false hs⟩

/-- Settles O32: the alt operations report and do nothing else. -/
theorem altKeysAreConsumed : Obligations.AltKeysAreConsumed := fun s => ⟨exec_altMk s, exec_altBr s⟩

/-- Settles O33: a mapped special key ends in `press`, and a key without override that enters is the ASSERT of its
position. -/
theorem specialMakeOutcomes : Obligations.SpecialMakeOutcomes := by
  intro s code pos hs
  rw [exec_specialMk]
  refine ⟨fun hp => ?_, fun hp hheld => ?_, fun hp hnot hfull => ?_, fun i hp hnot hi => ?_⟩
  · rw [specialMake_of_unmapped (hp ▸ hs)]
  · rw [specialMake_of_mapped hs hp, press_of_held hheld]
  · rw [specialMake_of_mapped hs hp, press_of_full hnot hfull]
  · rw [specialMake_of_mapped hs hp, press_of_free hnot hi]
    refine ⟨_, rfl, rfl, rfl, rfl, rfl, rfl, rebuild_mirrors _, fun hm r h1 h8 => ?_⟩
    have hassert : rebuiltMatrix s.keymap (setSlot s.slots i ⟨true, 0, pos, keyId code⟩) s.mod =
        assertBits s.keymap pos s.matrix := by rw [rebuiltMatrix_of_filled hi.1, (mirrors_iff s).1 hm]
    rw [State.report_matrix, State.rebuild_matrix]
    simp only [State.setSlots_keymap, State.setSlots_slots, State.setSlots_mod, hassert, rowBits_assertBits,
      validRow_iff.2 ⟨h1, h8⟩, true_and]

/-- Settles O34: a make with a position ends in `press`; its two lookups are the only other ends. -/
theorem printMakeOutcomes : Obligations.PrintMakeOutcomes := by
  intro s code
  simp only [exec_printMk]
  refine ⟨fun hq => ?_, fun a hq => ⟨fun ha => ?_, fun pos ha =>
    ⟨fun hheld => ?_, fun hnot hfull => ?_, fun i hnot hi => ?_⟩⟩⟩
  · rw [printMake_of_no_answer hq]
  · rw [printMake_of_no_position hq ha]
  · rw [printMake_of_mapped hq ha, press_of_held hheld]
  · rw [printMake_of_mapped hq ha, press_of_full hnot hfull]
  · rw [printMake_of_mapped hq ha, press_of_free hnot hi]
    exact ⟨_, rfl, rfl, rfl, rfl, rfl, rfl, rebuild_mirrors _,
      fun hm r c h1 h8 => filled_bit hm hi.1 (validRow_iff.2 ⟨h1, h8⟩)⟩

/-- Settles O35: the break frees the one slot with the identity and rebuilds. -/
theorem keyBreakOutcomes : Obligations.KeyBreakOutcomes := by
  intro s id
  rw [exec_keyBr]
  refine ⟨fun hnot => ?_, fun i hd hv hid => ?_⟩
  · rw [keyBreak_of_absent hnot]
  · rw [keyBreak_of_held hd hv hid]
    refine ⟨_, rfl, rfl, rfl, rfl, rfl, rfl, rebuild_mirrors _, fun hm r c => freed_other_bit hm (freed_v _),
      fun j hj hvj hrow hmask r c h1 h8 hk => ?_⟩
    refine freed_shared_bit (freed_v _) hj hvj (validRow_iff.2 ⟨h1, h8⟩) ?_
    rwa [KeyPlace, hrow, hmask]

/-- Settles O37: a make without a resolution reports UNMAPPED, any other ends in `press`, which finds the key. -/
theorem duplicateMakeIsDropped : Obligations.DuplicateMakeIsDropped := by
  intro s code hmk hheld
  obtain ⟨hnone, q, e⟩ | ⟨p, o, q, _, _, _, _, e⟩ := runEvent_make hmk
  · exact ⟨_, exec_event s code, e ▸ unchanged_report s _ q, fun hres => by simp [hnone] at hres⟩
  · rw [press_of_held hheld] at e
    exact ⟨_, exec_event s code, e ▸ unchanged_report s _ q, fun _ => by rw [e]; rfl⟩

/-- Settles O39: a make that was dropped leaves a key that is not held; one that filled a slot leaves a break that frees it
again. -/
theorem pressThenReleaseRestores : Obligations.PressThenReleaseRestores := by
  intro s mk brk hm hmk hnot hid hrel
  have hdropped : ∀ st q, runEvent mk s = s.report st q → ∃ t u, exec (.event mk) s = .next t ∧
      exec (.event brk) t = .next u ∧ u.matrix = s.matrix ∧ u.mod = s.mod ∧ heldKeys u.slots = heldKeys s.slots := by
    intro st q e
    obtain ⟨u, hu, ⟨hmat, hsl, hmod, _, _⟩, _⟩ := exec_break_of_not_held (s := s.report st q) hmk.1 hnot hid hrel
    exact ⟨_, u, by rw [exec_event, e], hu, hmat, hmod, by rw [hsl]; rfl⟩
  obtain ⟨_, q, e⟩ | ⟨p, o, q, _, _, _, _, e⟩ := runEvent_make hmk
  · exact hdropped _ _ e
  · obtain ⟨_, e'⟩ | ⟨_, _, e'⟩ | ⟨_, i, _, hi, e'⟩ := press_cases (keyId mk) p o q s
    · exact hdropped _ _ (e.trans e')
    · exact hdropped _ _ (e.trans e')
    · refine ⟨_, _, by rw [exec_event, e, e'], exec_event _ brk, ?_⟩
      rw [runEvent_break (by rw [hid]; exact hmk.1) hrel, hid, keyBreak_of_filled rfl hnot]
      exact ⟨(rebuiltMatrix_of_free hi rfl).trans ((mirrors_iff s).1 hm).symm, rfl, heldKeys_of_free hi rfl⟩

/-- Settles O41: the two codes select the same operation. -/
theorem contextFlagsIgnored : Obligations.ContextFlagsIgnored := by
  intro s c d hid hrel hflags
  have hsel : select s.keymap c = select s.keymap d := by
    cases h : lookupMod s.keymap (keyId c) with
    | some l =>
      have h' := hid ▸ h
      obtain ⟨m, rfl⟩ | ⟨m, rfl⟩ | rfl := line_cases l
      · rw [select_of_shift h, select_of_shift h', hrel]
      · rw [select_of_ctrl h, select_of_ctrl h', hrel]
      · rw [select_of_alt h, select_of_alt h', hrel]
    | none =>
      have hbrk : rel c = true := by simpa [h] using hflags
      rw [select_of_break h hbrk, select_of_break (hid ▸ h) (hrel ▸ hbrk), hid]
  rw [exec_event_eq_exec_select, exec_event_eq_exec_select, hsel]

/-- A write of MOD that changes a bit is a write of that bit's line. -/
theorem modBit_of_writeLine_ne {md : BitVec 4} {l : Line} {down : Bool} {j : Fin 4}
    (h : (writeLine md l down).getLsbD j ≠ md.getLsbD j) :
    modBit l = some j ∧ (writeLine md l down).getLsbD j = down := by
  rw [writeLine_bit] at h ⊢
  by_cases hl : modBit l = some j
  · exact ⟨hl, if_pos hl⟩
  · exact absurd (if_neg hl) h

/-- Settles O42: only the shift and control keys write MOD, each the bit of its line. -/
theorem modBitChangesOnlyByItsKey : Obligations.ModBitChangesOnlyByItsKey := by
  intro s t code j hexec hne
  cases hexec
  obtain ⟨m, hl, e⟩ | ⟨m, hl, e⟩ | ⟨_, e⟩ | ⟨_, _, _, e⟩ | ⟨_, _, _, _, _, _, _, _, _, _, _, _, e⟩ |
    ⟨_, _, _, _, _, e⟩ := runEvent_effect code s <;> rw [e] at hne ⊢
  · exact ⟨_, hl, modBit_of_writeLine_ne hne⟩
  · exact ⟨_, hl, modBit_of_writeLine_ne hne⟩
  all_goals exact absurd rfl hne

/-- Settles O43: PRINT.MK alone asks, with the query of the state before it. -/
theorem collaboratorAskedOnlyForPrintables : Obligations.CollaboratorAskedOnlyForPrintables := by
  intro s code
  refine ⟨_, exec_event s code, fun ⟨hmk, hs⟩ => ?_, fun hother => ?_⟩
  · rw [runEvent_print hmk hs]
    exact printMake_sc code s
  · obtain ⟨_, _, e⟩ | ⟨_, _, e⟩ | ⟨_, e⟩ | ⟨_, _, e⟩ | ⟨_, _, _, e⟩ | ⟨hmod, hrel, hs, _⟩ := runEvent_cases code s
    · rw [e]; rfl
    · rw [e]; rfl
    · rw [e]; rfl
    · rw [e, keyBreak_sc]
    · rw [e, specialMake_sc]
    · exact absurd ⟨⟨hmod, hrel⟩, hs⟩ hother

end Sys2Proof.Machine
end

section
/-! Frames: what each operation leaves unchanged, operation by operation, and that no operation and no step writes the tables
(20_memory.md R63). -/

namespace Sys2Proof.Machine

section Frames

variable {sl : Slots} {s : State} {id : KeyId} {pos : Position} {ovr : Ovr}

theorem unchanged_setOut (s : State) (o : Output) : s.Unchanged (s.setOut o) := ⟨rfl, rfl, rfl, rfl, rfl⟩

/-- ADD writes no slot but the lowest free one, and none at all when the identity is held or no slot is free (R131). -/
theorem pksAdd_frame (sl : Slots) (id : KeyId) (pos : Position) (ovr : Ovr) :
    (∀ j, findFree sl ≠ some j → slot (pksAdd sl id pos ovr).2 j = slot sl j) ∧
    (Held sl id ∨ findFree sl = none → (pksAdd sl id pos ovr).2 = sl) := by
  obtain ⟨_, e⟩ | ⟨_, _, e⟩ | ⟨hc, i, hi, _, e⟩ := pksAdd_cases sl id pos ovr <;> rw [e]
  · exact ⟨fun _ _ => rfl, fun _ => rfl⟩
  · exact ⟨fun _ _ => rfl, fun _ => rfl⟩
  · refine ⟨fun j hj => ?_, ?_⟩
    · have hne : i ≠ j := fun hij => hj (hij ▸ hi)
      rw [slot_setSlot, if_neg hne]
    · rintro (h | h)
      · simp [(pksContains_iff_held id).2 h] at hc
      · simp [h] at hi

/-- REMOVE writes no slot but the one the search for the identity finds (R132). -/
theorem pksRemove_frame (sl : Slots) (id : KeyId) :
    (∀ j, findHeld sl id ≠ some j → slot (pksRemove sl id).2 j = slot sl j) ∧
    (findHeld sl id = none → (pksRemove sl id).2 = sl) := by
  unfold pksRemove
  cases h : findHeld sl id with
  | none => exact ⟨fun _ _ => rfl, fun _ => rfl⟩
  | some i =>
    refine ⟨fun j hj => ?_, fun h => by cases h⟩
    have hne : i ≠ j := fun hij => hj (hij ▸ rfl)
    rw [slot_setSlot, if_neg hne]

/-- A state whose slots alone were written, with what stood there, is unchanged. -/
theorem unchanged_of_slots_eq {a : Answer} (h : sl = s.slots) : s.Unchanged ((s.setSlots sl).answer a) :=
  ⟨rfl, h, rfl, rfl, rfl⟩

/-- A write to an invalid row changes nothing (R170, R171, D27). -/
theorem unchanged_of_invalid_row {a : Answer} {b : Byte} (h : rowOk pos = false) :
    s.Unchanged ((s.setMatrix (writeRow s.matrix (rowOf pos) b)).answer a) :=
  ⟨writeRow_invalid b h, rfl, rfl, rfl, rfl⟩

theorem specialMake_frame (code : Code) (s : State) :
    (specialMake code s).keymap = s.keymap ∧ (specialMake code s).inputs = s.inputs ∧ (specialMake code s).mod = s.mod ∧
    (∀ j : Fin 6, findFree s.slots ≠ some j → slot (specialMake code s).slots j = slot s.slots j) ∧
    (lookupSpecial s.keymap (spKey code) = none ∨ lookupSpecial s.keymap (spKey code) = some 0xFF ∨
      Held s.slots (keyId code) ∨ findFree s.slots = none → s.Unchanged (specialMake code s)) := by
  obtain e | ⟨pos, hpos, hu, e⟩ := specialMake_cases code s <;> rw [e]
  · exact ⟨rfl, rfl, rfl, fun _ _ => rfl, fun _ => unchanged_report s _ _⟩
  · obtain ⟨hk, hin, hmod, hsl, hun⟩ := press_frame (keyId code) pos 0#2 none s
    refine ⟨hk, hin, hmod, hsl, ?_⟩
    rintro (h | h | h)
    · simp [h] at hpos
    · obtain rfl : 0xFF = pos := by simpa [h] using hpos
      exact absurd hu (by decide)
    · exact hun h

theorem printMake_frame (code : Code) (s : State) :
    (printMake code s).keymap = s.keymap ∧ (printMake code s).inputs = s.inputs ∧ (printMake code s).mod = s.mod ∧
    (∀ j : Fin 6, findFree s.slots ≠ some j → slot (printMake code s).slots j = slot s.slots j) ∧
    (sc2ascii s.keymap (s.query code) = none ∨
      (∃ a, sc2ascii s.keymap (s.query code) = some a ∧ lookupAscii s.keymap a = none) ∨
      Held s.slots (keyId code) ∨ findFree s.slots = none → s.Unchanged (printMake code s)) := by
  obtain e | ⟨a, pos, ha, hpos, e⟩ := printMake_cases code s <;> rw [e]
  · exact ⟨rfl, rfl, rfl, fun _ _ => rfl, fun _ => unchanged_report s _ _⟩
  · obtain ⟨hk, hin, hmod, hsl, hun⟩ :=
      press_frame (keyId code) pos (lookupOvr s.keymap a) (some (s.query code)) s
    refine ⟨hk, hin, hmod, hsl, ?_⟩
    rintro (h | ⟨b, hb, hnone⟩ | h)
    · simp [h] at ha
    · obtain rfl : b = a := by simpa [hb] using ha
      simp [hnone] at hpos
    · exact hun h

/-- An event writes MOD for a modifier only, slots for a key only, and of these only the two that its searches find. -/
theorem runEvent_frame (code : Code) (s : State) :
    (lookupMod s.keymap (keyId code) = none → (runEvent code s).mod = s.mod) ∧
    ((lookupMod s.keymap (keyId code)).isSome = true → (runEvent code s).slots = s.slots) ∧
    (∀ j : Fin 6, findFree s.slots ≠ some j → findHeld s.slots (keyId code) ≠ some j →
      slot (runEvent code s).slots j = slot s.slots j) := by
  obtain ⟨m, h, e⟩ | ⟨m, h, e⟩ | ⟨h, e⟩ | ⟨h, hr, e⟩ | ⟨h, hr, _, e⟩ | ⟨h, hr, _, e⟩ := runEvent_cases code s <;>
    rw [e, h]
  · exact ⟨nofun, fun _ => rfl, fun _ _ _ => rfl⟩
  · exact ⟨nofun, fun _ => rfl, fun _ _ _ => rfl⟩
  · exact ⟨nofun, fun _ => rfl, fun _ _ _ => rfl⟩
  · obtain ⟨_, _, hmod, hsl, _⟩ := keyBreak_frame (keyId code) s
    exact ⟨fun _ => hmod, nofun, fun j _ hj => hsl j hj⟩
  · obtain ⟨_, _, hmod, hsl, _⟩ := specialMake_frame code s
    exact ⟨fun _ => hmod, nofun, fun j hj _ => hsl j hj⟩
  · obtain ⟨_, _, hmod, hsl, _⟩ := printMake_frame code s
    exact ⟨fun _ => hmod, nofun, fun j hj _ => hsl j hj⟩

theorem writeLine_ctrl_keeps_shift (m : CtrlKey) (md : BitVec 4) (down : Bool) :
    ∀ j < 2, (writeLine md (ctrlLine m) down).getLsbD j = md.getLsbD j := fun j hj => by
  rw [writeLine_ctrl_getLsbD, if_neg (by split <;> omega)]

theorem writeLine_shift_keeps_ctrl (m : ShiftKey) (md : BitVec 4) (down : Bool) :
    ∀ j, 2 ≤ j → (writeLine md (shiftLine m) down).getLsbD j = md.getLsbD j := fun j hj => by
  rw [writeLine_shift_getLsbD, if_neg (by split <;> omega)]

end Frames

/-- Settles O44: each instruction's next state is its equation's, and the frames of ADD, REMOVE, the makes, the break and the
event say what is left unchanged. -/
theorem operationFrames : Obligations.OperationFrames := by
  intro i s t h
  cases i <;> cases h
  case shiftMk m => exact ⟨rfl, rfl, rfl, writeLine_shift_keeps_ctrl m s.mod true⟩
  case shiftBr m => exact ⟨rfl, rfl, rfl, writeLine_shift_keeps_ctrl m s.mod false⟩
  case ctrlMk m => exact ⟨rfl, rfl, rfl, rfl, writeLine_ctrl_keeps_shift m s.mod true⟩
  case ctrlBr m => exact ⟨rfl, rfl, rfl, rfl, writeLine_ctrl_keeps_shift m s.mod false⟩
  case specialMk code => exact specialMake_frame code s
  case printMk code => exact printMake_frame code s
  case keyBr id => exact keyBreak_frame id s
  case event code =>
    obtain ⟨hk, hin⟩ := runEvent_keymap_inputs code s
    exact ⟨hk, hin, runEvent_frame code s⟩
  case rst => exact ⟨rfl, rfl, rfl⟩
  case add id pos ovr =>
    obtain ⟨hother, hnone⟩ := pksAdd_frame s.slots id pos ovr
    exact ⟨rfl, rfl, rfl, rfl, hother, fun h => unchanged_of_slots_eq (hnone h)⟩
  case remove id =>
    obtain ⟨hother, hnone⟩ := pksRemove_frame s.slots id
    exact ⟨rfl, rfl, rfl, rfl, hother, fun h => unchanged_of_slots_eq (hnone h)⟩
  case assertPos pos =>
    exact ⟨rfl, rfl, rfl, rfl, fun _ => rowBits_assertBits_other, unchanged_of_invalid_row⟩
  case clearPos pos =>
    exact ⟨rfl, rfl, rfl, rfl, fun _ => rowBits_clearBits_other, unchanged_of_invalid_row⟩
  case pksClear | clearAll | rebuild => exact ⟨rfl, rfl, rfl, rfl⟩
  all_goals exact ⟨rfl, rfl, unchanged_setOut s _⟩

/-- Settles O9: every frame has the configuration and the activity to come, and a step is a run of `exec` or idles. -/
theorem tablesNeverChange : Obligations.TablesNeverChange := by
  have hexec : ∀ (i : Instr) (s t : State), exec i s = .next t → t.keymap = s.keymap ∧ t.inputs = s.inputs :=
    fun i s t h => by
      obtain ⟨hk, hin, _⟩ := operationFrames i s t h
      exact ⟨hk, hin⟩
  refine ⟨hexec, fun s t h => ?_⟩
  cases hin : s.inputs with
  | nil =>
    rw [step_idle hin] at h
    cases h
    rfl
  | cons a rest =>
    rw [step_cons hin] at h
    obtain ⟨hk, _⟩ := hexec _ _ _ h
    exact hk

end Sys2Proof.Machine
end
